-- ==== Sys2Proof/Word.lean ====
section
/-! DEFINITION. The machine's word types (00_scope.md R4, section 4: every value is unsigned) and their widening. -/

namespace Sys2Proof

/-- A register or memory byte, 0 to 255 (R10, R19). -/
abbrev Byte := BitVec 8

/-- A 16-bit value: an instruction word, `PC`, `I` or a stack entry (R4, R13, R15, R20, R60). -/
abbrev Word := BitVec 16

/-- The 12-bit address field `nnn` of an instruction word (R62). -/
abbrev Addr := BitVec 12

/-- The number of a general register, `V[0]` to `V[15]`. Every 4-bit field value names one, so there
is no register-index fault (R10, R11). -/
abbrev Reg := Fin 16

/-- The code of a key, 0 to 15 (R25). -/
abbrev KeyCode := Fin 16

/-- `zext_16` of a byte (00_scope.md section 4). -/
abbrev Byte.zext (b : Byte) : Word := b.setWidth 16

/-- `zext_16` of a 12-bit address field (00_scope.md section 4). -/
abbrev Addr.zext (a : Addr) : Word := a.setWidth 16

end Sys2Proof
end

