-- ==== Sys2Proof/Config.lean ====
section
/-! DEFINITION. What an implementation fixes (00_scope.md R4, 10_state.md R27, 92_eei_decisions.md D4, D5, D29), the fixed
sizes of R4, and the one free value of the machine, the random byte (R131, D18). -/

namespace Sys2Proof

/-- `MEM_SIZE`: the addresses are 0x000 to 0xFFF (R4, R19). -/
abbrev memSize : Nat := 0x1000

/-- `ROM_BASE`: where the program is loaded (R4, R50). -/
abbrev romBase : Nat := 0x200

/-- The most bytes a program image may have: 0x200 + 3584 = 0x1000 (R211). -/
abbrev maxRomBytes : Nat := 3584

/-- `RESET_PC` (R4, R35). -/
abbrev resetPc : Word := 0x200#16

/-- `GLYPH_BYTES` and the 16 glyphs of the font (R4, R51). -/
abbrev glyphBytes : Nat := 5

/-- The font is 16 glyphs of 5 bytes (R4, R211). -/
abbrev fontBytes : Nat := 80

/-- `DISP_W` (R4, R23). -/
abbrev dispWidth : Nat := 64

/-- `DISP_H` (R4, R23). -/
abbrev dispHeight : Nat := 32

/-- The configuration of one machine: fixed when the core is built or reset, changed by no instruction
and by no host event but a new `RESET` (R27, R212). Every statement about the machine holds for every
value of it. -/
structure Config where
  /-- `STACK_LIMIT`, at least 1, default 16 (R4, R21, D4). -/
  stackLimit : Nat
  /-- `STRICT_UNKNOWN`, default false (R4, R170, D29). -/
  strictUnknown : Bool
  /-- `FONT_BASE`, an open parameter: the 80 font bytes end at or below 0x200, so the base is at most
  0x1B0 (R4, R51, D5). -/
  fontBase : Fin 433
deriving DecidableEq, Repr

/-- The constraints of R4 on the configuration that its types do not already say. -/
def Config.wf (c : Config) : Bool := decide (1 ≤ c.stackLimit)

/-- The default configuration. `STACK_LIMIT` 16 and `STRICT_UNKNOWN` false are the spec's defaults (R4);
`FONT_BASE` has none, and 0x050 is the instance the spec's test vectors use
(PRESUMED, unsafe: assumption 4). -/
def Config.default : Config := { stackLimit := 16, strictUnknown := false, fontBase := 0x050 }

/-- The random byte `rnd` of a step (R131, D18): a free value under no law. It has no body, so nothing can
be proved of it; the argument is the number of draws made before (assumption 3). -/
opaque Config.randomByte : Nat → Byte

end Sys2Proof
end

