-- ==== Sys2Proof/Syntax.lean ====
section
/-! DEFINITION. The 34 recognised instructions, one constructor per row of the opcode table (30_encoding.md R66), the kinds of
R64 and R66, and the assembler spelling of R75. -/

namespace Sys2Proof

/-- A recognised instruction with the operand fields its row of R66 lists. `x` and `y` name registers, `nn` is an
8-bit immediate, `nnn` a 12-bit address, `n` the 4-bit height of a sprite, which is a count (R62, R64). -/
inductive Instr where
  /-- `00E0` `CLS`: clear-display (R140). -/
  | cls
  /-- `00EE` `RET`: return-from-subroutine (R100). -/
  | ret
  /-- `1NNN` `JP nnn`: jump (R101). -/
  | jp (nnn : Addr)
  /-- `2NNN` `CALL nnn`: call-subroutine (R102). -/
  | call (nnn : Addr)
  /-- `3XNN` `SE Vx, nn`: skip-if-equal-immediate (R110). -/
  | seVxNn (x : Reg) (nn : Byte)
  /-- `4XNN` `SNE Vx, nn`: skip-if-not-equal-immediate (R111). -/
  | sneVxNn (x : Reg) (nn : Byte)
  /-- `5XY-` `SE Vx, Vy`: skip-if-registers-equal (R112). -/
  | seVxVy (x : Reg) (y : Reg)
  /-- `6XNN` `LD Vx, nn`: load-immediate (R120). -/
  | ldVxNn (x : Reg) (nn : Byte)
  /-- `7XNN` `ADD Vx, nn`: add-immediate (R121). -/
  | addVxNn (x : Reg) (nn : Byte)
  /-- `8XY0` `LD Vx, Vy`: assign (R122). -/
  | ldVxVy (x : Reg) (y : Reg)
  /-- `8XY1` `OR Vx, Vy`: or (R123). -/
  | orVxVy (x : Reg) (y : Reg)
  /-- `8XY2` `AND Vx, Vy`: and (R124). -/
  | andVxVy (x : Reg) (y : Reg)
  /-- `8XY3` `XOR Vx, Vy`: xor (R125). -/
  | xorVxVy (x : Reg) (y : Reg)
  /-- `8XY4` `ADD Vx, Vy`: add (R126). -/
  | addVxVy (x : Reg) (y : Reg)
  /-- `8XY5` `SUB Vx, Vy`: sub (R127). -/
  | subVxVy (x : Reg) (y : Reg)
  /-- `8XY6` `SHR Vx, Vy`: shift-right (R128). -/
  | shrVxVy (x : Reg) (y : Reg)
  /-- `8XY7` `SUBN Vx, Vy`: sub-reverse (R129). -/
  | subnVxVy (x : Reg) (y : Reg)
  /-- `8XYE` `SHL Vx, Vy`: shift-left (R130). -/
  | shlVxVy (x : Reg) (y : Reg)
  /-- `9XY-` `SNE Vx, Vy`: skip-if-registers-not-equal (R113). -/
  | sneVxVy (x : Reg) (y : Reg)
  /-- `ANNN` `LD I, nnn`: load-index (R160). -/
  | ldINnn (nnn : Addr)
  /-- `BNNN` `JP V0, nnn`: jump-plus-v0 (R103). -/
  | jpV0Nnn (nnn : Addr)
  /-- `CXNN` `RND Vx, nn`: load-random-masked (R131). -/
  | rndVxNn (x : Reg) (nn : Byte)
  /-- `DXYN` `DRW Vx, Vy, n`: draw-sprite (R141). -/
  | drw (x : Reg) (y : Reg) (n : Nat)
  /-- `EX9E` `SKP Vx`: skip-if-key-pressed (R150). -/
  | skp (x : Reg)
  /-- `EXA1` `SKNP Vx`: skip-if-key-not-pressed (R151). -/
  | sknp (x : Reg)
  /-- `FX07` `LD Vx, DT`: get-delay (R152). -/
  | ldVxDt (x : Reg)
  /-- `FX0A` `LD Vx, K`: wait-for-key (R153). -/
  | ldVxK (x : Reg)
  /-- `FX15` `LD DT, Vx`: set-delay (R154). -/
  | ldDtVx (x : Reg)
  /-- `FX18` `LD ST, Vx`: set-sound (R155). -/
  | ldStVx (x : Reg)
  /-- `FX1E` `ADD I, Vx`: add-to-index (R161). -/
  | addIVx (x : Reg)
  /-- `FX29` `LD F, Vx`: load-font-address (R162). -/
  | ldFVx (x : Reg)
  /-- `FX33` `LD B, Vx`: store-bcd (R163). -/
  | ldBVx (x : Reg)
  /-- `FX55` `LD [I], Vx`: save-registers (R164). -/
  | ldMemVx (x : Reg)
  /-- `FX65` `LD Vx, [I]`: load-registers (R165). -/
  | ldVxMem (x : Reg)
deriving DecidableEq, Repr

/-- The operation kind of a decoded word: the source's 34 names, and `unknown` (R64, R66, R70). -/
inductive Kind where
  | clearDisplay | returnFromSubroutine | jump
  | callSubroutine | skipIfEqualImmediate | skipIfNotEqualImmediate
  | skipIfRegistersEqual | loadImmediate | addImmediate
  | assign | or_ | and_
  | xor | add | sub
  | shiftRight | subReverse | shiftLeft
  | skipIfRegistersNotEqual | loadIndex | jumpPlusV0
  | loadRandomMasked | drawSprite | skipIfKeyPressed
  | skipIfKeyNotPressed | getDelay | waitForKey
  | setDelay | setSound | addToIndex
  | loadFontAddress | storeBcd | saveRegisters
  | loadRegisters
  | unknown
deriving DecidableEq, Repr

/-- The kind of a recognised instruction (R66, second column). -/
def Instr.kind : Instr → Kind
  | .cls => .clearDisplay
  | .ret => .returnFromSubroutine
  | .jp _ => .jump
  | .call _ => .callSubroutine
  | .seVxNn _ _ => .skipIfEqualImmediate
  | .sneVxNn _ _ => .skipIfNotEqualImmediate
  | .seVxVy _ _ => .skipIfRegistersEqual
  | .ldVxNn _ _ => .loadImmediate
  | .addVxNn _ _ => .addImmediate
  | .ldVxVy _ _ => .assign
  | .orVxVy _ _ => .or_
  | .andVxVy _ _ => .and_
  | .xorVxVy _ _ => .xor
  | .addVxVy _ _ => .add
  | .subVxVy _ _ => .sub
  | .shrVxVy _ _ => .shiftRight
  | .subnVxVy _ _ => .subReverse
  | .shlVxVy _ _ => .shiftLeft
  | .sneVxVy _ _ => .skipIfRegistersNotEqual
  | .ldINnn _ => .loadIndex
  | .jpV0Nnn _ => .jumpPlusV0
  | .rndVxNn _ _ => .loadRandomMasked
  | .drw _ _ _ => .drawSprite
  | .skp _ => .skipIfKeyPressed
  | .sknp _ => .skipIfKeyNotPressed
  | .ldVxDt _ => .getDelay
  | .ldVxK _ => .waitForKey
  | .ldDtVx _ => .setDelay
  | .ldStVx _ => .setSound
  | .addIVx _ => .addToIndex
  | .ldFVx _ => .loadFontAddress
  | .ldBVx _ => .storeBcd
  | .ldMemVx _ => .saveRegisters
  | .ldVxMem _ => .loadRegisters

/-- One hexadecimal digit, in capitals as R75 writes `VF`. -/
def hexDigit (d : Nat) : String := String.ofList [(Nat.digitChar (d % 16)).toUpper]

/-- `V0` to `VF` (R10, R75). -/
def Reg.asm (r : Reg) : String := "V" ++ hexDigit r.val

/-- A number in hexadecimal with `0x`, `k` digits (R75). -/
def asmNumber (k v : Nat) : String :=
  "0x" ++ String.join ((List.range k).map fun i => hexDigit (v / 16 ^ (k - 1 - i)))

/-- The assembler spelling of an instruction (R66 third column, R75). -/
def Instr.asm : Instr → String
  | .cls => "CLS"
  | .ret => "RET"
  | .jp nnn => "JP " ++ asmNumber 3 nnn.toNat
  | .call nnn => "CALL " ++ asmNumber 3 nnn.toNat
  | .seVxNn x nn => "SE " ++ Reg.asm x ++ ", " ++ asmNumber 2 nn.toNat
  | .sneVxNn x nn => "SNE " ++ Reg.asm x ++ ", " ++ asmNumber 2 nn.toNat
  | .seVxVy x y => "SE " ++ Reg.asm x ++ ", " ++ Reg.asm y
  | .ldVxNn x nn => "LD " ++ Reg.asm x ++ ", " ++ asmNumber 2 nn.toNat
  | .addVxNn x nn => "ADD " ++ Reg.asm x ++ ", " ++ asmNumber 2 nn.toNat
  | .ldVxVy x y => "LD " ++ Reg.asm x ++ ", " ++ Reg.asm y
  | .orVxVy x y => "OR " ++ Reg.asm x ++ ", " ++ Reg.asm y
  | .andVxVy x y => "AND " ++ Reg.asm x ++ ", " ++ Reg.asm y
  | .xorVxVy x y => "XOR " ++ Reg.asm x ++ ", " ++ Reg.asm y
  | .addVxVy x y => "ADD " ++ Reg.asm x ++ ", " ++ Reg.asm y
  | .subVxVy x y => "SUB " ++ Reg.asm x ++ ", " ++ Reg.asm y
  | .shrVxVy x y => "SHR " ++ Reg.asm x ++ ", " ++ Reg.asm y
  | .subnVxVy x y => "SUBN " ++ Reg.asm x ++ ", " ++ Reg.asm y
  | .shlVxVy x y => "SHL " ++ Reg.asm x ++ ", " ++ Reg.asm y
  | .sneVxVy x y => "SNE " ++ Reg.asm x ++ ", " ++ Reg.asm y
  | .ldINnn nnn => "LD I, " ++ asmNumber 3 nnn.toNat
  | .jpV0Nnn nnn => "JP V0, " ++ asmNumber 3 nnn.toNat
  | .rndVxNn x nn => "RND " ++ Reg.asm x ++ ", " ++ asmNumber 2 nn.toNat
  | .drw x y n => "DRW " ++ Reg.asm x ++ ", " ++ Reg.asm y ++ ", " ++ asmNumber 1 n
  | .skp x => "SKP " ++ Reg.asm x
  | .sknp x => "SKNP " ++ Reg.asm x
  | .ldVxDt x => "LD " ++ Reg.asm x ++ ", DT"
  | .ldVxK x => "LD " ++ Reg.asm x ++ ", K"
  | .ldDtVx x => "LD DT, " ++ Reg.asm x
  | .ldStVx x => "LD ST, " ++ Reg.asm x
  | .addIVx x => "ADD I, " ++ Reg.asm x
  | .ldFVx x => "LD F, " ++ Reg.asm x
  | .ldBVx x => "LD B, " ++ Reg.asm x
  | .ldMemVx x => "LD [I], " ++ Reg.asm x
  | .ldVxMem x => "LD " ++ Reg.asm x ++ ", [I]"

end Sys2Proof
end

