-- ==== Sys2Proof/Decode.lean ====
section
/-! DEFINITION. Decoding an instruction word (30_encoding.md R60 to R72), total on every word and every list of bytes, and the
encoder written from the same tables. -/

namespace Sys2Proof

/-! ## Fields of a word (R60, R62) -/

/-- `d0 = op[15:12]`, the top nibble (R60). -/
def topNibble (op : Word) : BitVec 4 := op.extractLsb' 12 4

/-- `op[11:8]` (R62). -/
def nibbleX (op : Word) : BitVec 4 := op.extractLsb' 8 4

/-- `op[7:4]` (R62). -/
def nibbleY (op : Word) : BitVec 4 := op.extractLsb' 4 4

/-- `d3 = op[3:0]`, the low nibble (R60, R62). -/
def nibbleN (op : Word) : BitVec 4 := op.extractLsb' 0 4

/-- The register a 4-bit field selects (R11). -/
def regOfNibble (k : BitVec 4) : Reg := k.toFin

/-- The field value that selects a register (R11). -/
def nibbleOfReg (r : Reg) : BitVec 4 := BitVec.ofFin r

/-- The field `x` (R62). -/
def fieldX (op : Word) : Reg := regOfNibble (nibbleX op)

/-- The field `y` (R62). -/
def fieldY (op : Word) : Reg := regOfNibble (nibbleY op)

/-- The field `n`, a count (R62). -/
def fieldN (op : Word) : Nat := (nibbleN op).toNat

/-- The field `nn`, `op[7:0]` (R62). -/
def fieldNn (op : Word) : Byte := op.extractLsb' 0 8

/-- The field `nnn`, `op[11:0]` (R62). -/
def fieldNnn (op : Word) : Addr := op.extractLsb' 0 12

/-! ## Decode (R64 to R72) -/

/-- What a word decodes to: a recognised instruction, or `Unknown` with the raw word (R64, R65). -/
inductive Decoded where
  | recognised (i : Instr)
  | unknown (op : Word)
deriving DecidableEq, Repr

/-- The instruction, where the word is recognised. -/
def Decoded.instr? : Decoded → Option Instr
  | .recognised i => some i
  | .unknown _ => none

/-- The kind of a decoded word (R64). -/
def Decoded.kind : Decoded → Kind
  | .recognised i => i.kind
  | .unknown _ => .unknown

/-- Top nibble 0: the whole word decides (R67). -/
def decode0 (op : Word) : Decoded :=
  if op = 0x00E0#16 then .recognised .cls
  else if op = 0x00EE#16 then .recognised .ret
  else .unknown op

/-- Top nibble 8: the low nibble selects (R68). -/
def decode8 (op : Word) : Decoded :=
  match nibbleN op with
  | 0x0#4 => .recognised (.ldVxVy (fieldX op) (fieldY op))
  | 0x1#4 => .recognised (.orVxVy (fieldX op) (fieldY op))
  | 0x2#4 => .recognised (.andVxVy (fieldX op) (fieldY op))
  | 0x3#4 => .recognised (.xorVxVy (fieldX op) (fieldY op))
  | 0x4#4 => .recognised (.addVxVy (fieldX op) (fieldY op))
  | 0x5#4 => .recognised (.subVxVy (fieldX op) (fieldY op))
  | 0x6#4 => .recognised (.shrVxVy (fieldX op) (fieldY op))
  | 0x7#4 => .recognised (.subnVxVy (fieldX op) (fieldY op))
  | 0xE#4 => .recognised (.shlVxVy (fieldX op) (fieldY op))
  | _ => .unknown op

/-- Top nibble E: the low byte selects, `x` is free (R69). -/
def decodeE (op : Word) : Decoded :=
  match fieldNn op with
  | 0x9E#8 => .recognised (.skp (fieldX op))
  | 0xA1#8 => .recognised (.sknp (fieldX op))
  | _ => .unknown op

/-- Top nibble F: the low byte selects, `x` is free (R69). -/
def decodeF (op : Word) : Decoded :=
  match fieldNn op with
  | 0x07#8 => .recognised (.ldVxDt (fieldX op))
  | 0x0A#8 => .recognised (.ldVxK (fieldX op))
  | 0x15#8 => .recognised (.ldDtVx (fieldX op))
  | 0x18#8 => .recognised (.ldStVx (fieldX op))
  | 0x1E#8 => .recognised (.addIVx (fieldX op))
  | 0x29#8 => .recognised (.ldFVx (fieldX op))
  | 0x33#8 => .recognised (.ldBVx (fieldX op))
  | 0x55#8 => .recognised (.ldMemVx (fieldX op))
  | 0x65#8 => .recognised (.ldVxMem (fieldX op))
  | _ => .unknown op

/-- Decode of a word: the top nibble first, then the selector of the ambiguous families 0, 8, E, F (R65). Under 5 and 9 the
low nibble is ignored (R71). -/
def decodeWord (op : Word) : Decoded :=
  match topNibble op with
  | 0x0#4 => decode0 op
  | 0x1#4 => .recognised (.jp (fieldNnn op))
  | 0x2#4 => .recognised (.call (fieldNnn op))
  | 0x3#4 => .recognised (.seVxNn (fieldX op) (fieldNn op))
  | 0x4#4 => .recognised (.sneVxNn (fieldX op) (fieldNn op))
  | 0x5#4 => .recognised (.seVxVy (fieldX op) (fieldY op))
  | 0x6#4 => .recognised (.ldVxNn (fieldX op) (fieldNn op))
  | 0x7#4 => .recognised (.addVxNn (fieldX op) (fieldNn op))
  | 0x8#4 => decode8 op
  | 0x9#4 => .recognised (.sneVxVy (fieldX op) (fieldY op))
  | 0xA#4 => .recognised (.ldINnn (fieldNnn op))
  | 0xB#4 => .recognised (.jpV0Nnn (fieldNnn op))
  | 0xC#4 => .recognised (.rndVxNn (fieldX op) (fieldNn op))
  | 0xD#4 => .recognised (.drw (fieldX op) (fieldY op) (fieldN op))
  | 0xE#4 => decodeE op
  | 0xF#4 => decodeF op
  | _ => .unknown op

/-- The word of two consecutive bytes, the byte at the lower address high (R44, R63). -/
def wordOfBytes (hi lo : Byte) : Word := hi ++ lo

/-- The high byte of a word, which lies at the lower address (R44). -/
def highByte (op : Word) : Byte := op.extractLsb' 8 8

/-- The low byte of a word, which lies at the higher address (R44). -/
def lowByte (op : Word) : Byte := op.extractLsb' 0 8

/-- Decode of a byte sequence: it consumes exactly two bytes and gives the rest, whatever the word is (R61); with
fewer than two bytes there is no word to decode. -/
def decodeBytes : List Byte → Option (Decoded × List Byte)
  | hi :: lo :: rest => some (decodeWord (wordOfBytes hi lo), rest)
  | _ => none

/-- The descriptor of R64: the raw word, the kind, and all five operand fields whatever the kind. -/
structure Descriptor where
  op : Word
  kind : Kind
  x : Reg
  y : Reg
  nnn : Addr
  nn : Byte
  n : Nat
deriving DecidableEq, Repr

/-- Decode of a word to its descriptor (R64). -/
def describe (op : Word) : Descriptor :=
  { op := op, kind := (decodeWord op).kind, x := fieldX op, y := fieldY op, nnn := fieldNnn op, nn := fieldNn op,
    n := fieldN op }

/-- The instruction the decoder reads from an instruction of `nbits` bits `w`, numbered as the opcode table numbers
them: one 16-bit word, bit 0 its least significant, every bit above `nbits` 0. The word is laid out as the hardware
stores it, high byte first, and given to `decodeBytes`. -/
def decodeTableWord (nbits w : Nat) : Option Instr :=
  match decodeBytes [highByte (BitVec.ofNat 16 (w % 2 ^ nbits)), lowByte (BitVec.ofNat 16 (w % 2 ^ nbits))] with
  | some (d, _) => d.instr?
  | none => none

/-! ## Encode (R62, R66) -/

/-- Format `A`: `d0 nnn`. -/
def formatA (d0 : BitVec 4) (nnn : Addr) : Word := d0 ++ nnn

/-- Formats `XK` and `XS`: `d0 x nn`, where in `XS` the low byte is the selector. -/
def formatXK (d0 : BitVec 4) (x : Reg) (nn : Byte) : Word := d0 ++ nibbleOfReg x ++ nn

/-- Formats `XY`, `XYS` and `XYN`: `d0 x y d3`, where `d3` is ignored (0 in the canonical encoding, R71), a selector, or
the height. -/
def formatXYN (d0 : BitVec 4) (x y : Reg) (d3 : BitVec 4) : Word := d0 ++ nibbleOfReg x ++ nibbleOfReg y ++ d3

/-- The canonical word of an instruction (R66, R71). -/
def encode : Instr → Word
  | .cls => 0x00E0#16
  | .ret => 0x00EE#16
  | .jp nnn => formatA 0x1#4 nnn
  | .call nnn => formatA 0x2#4 nnn
  | .seVxNn x nn => formatXK 0x3#4 x nn
  | .sneVxNn x nn => formatXK 0x4#4 x nn
  | .seVxVy x y => formatXYN 0x5#4 x y 0x0#4
  | .ldVxNn x nn => formatXK 0x6#4 x nn
  | .addVxNn x nn => formatXK 0x7#4 x nn
  | .ldVxVy x y => formatXYN 0x8#4 x y 0x0#4
  | .orVxVy x y => formatXYN 0x8#4 x y 0x1#4
  | .andVxVy x y => formatXYN 0x8#4 x y 0x2#4
  | .xorVxVy x y => formatXYN 0x8#4 x y 0x3#4
  | .addVxVy x y => formatXYN 0x8#4 x y 0x4#4
  | .subVxVy x y => formatXYN 0x8#4 x y 0x5#4
  | .shrVxVy x y => formatXYN 0x8#4 x y 0x6#4
  | .subnVxVy x y => formatXYN 0x8#4 x y 0x7#4
  | .shlVxVy x y => formatXYN 0x8#4 x y 0xE#4
  | .sneVxVy x y => formatXYN 0x9#4 x y 0x0#4
  | .ldINnn nnn => formatA 0xA#4 nnn
  | .jpV0Nnn nnn => formatA 0xB#4 nnn
  | .rndVxNn x nn => formatXK 0xC#4 x nn
  | .drw x y n => formatXYN 0xD#4 x y (BitVec.ofNat 4 n)
  | .skp x => formatXK 0xE#4 x 0x9E#8
  | .sknp x => formatXK 0xE#4 x 0xA1#8
  | .ldVxDt x => formatXK 0xF#4 x 0x07#8
  | .ldVxK x => formatXK 0xF#4 x 0x0A#8
  | .ldDtVx x => formatXK 0xF#4 x 0x15#8
  | .ldStVx x => formatXK 0xF#4 x 0x18#8
  | .addIVx x => formatXK 0xF#4 x 0x1E#8
  | .ldFVx x => formatXK 0xF#4 x 0x29#8
  | .ldBVx x => formatXK 0xF#4 x 0x33#8
  | .ldMemVx x => formatXK 0xF#4 x 0x55#8
  | .ldVxMem x => formatXK 0xF#4 x 0x65#8

/-- The two bytes of an instruction as memory holds them (R44). -/
def encodeBytes (i : Instr) : List Byte := [highByte (encode i), lowByte (encode i)]

/-! ## The opcode table of R66, as data -/

/-- A row of R66: a word has the form of the row exactly when `op & mask == pattern`. -/
structure OpcodeRow where
  kind : Kind
  pattern : Word
  mask : Word
deriving DecidableEq, Repr

/-- A word has the form of a row (R66). -/
def OpcodeRow.fits (r : OpcodeRow) (op : Word) : Bool := op &&& r.mask == r.pattern

/-- The rows of R66 under top nibbles 0 to 7. -/
def opcodeRowsLow : List OpcodeRow :=
  [⟨.clearDisplay, 0x00E0#16, 0xFFFF#16⟩, ⟨.returnFromSubroutine, 0x00EE#16, 0xFFFF#16⟩,
    ⟨.jump, 0x1000#16, 0xF000#16⟩, ⟨.callSubroutine, 0x2000#16, 0xF000#16⟩,
    ⟨.skipIfEqualImmediate, 0x3000#16, 0xF000#16⟩, ⟨.skipIfNotEqualImmediate, 0x4000#16, 0xF000#16⟩,
    ⟨.skipIfRegistersEqual, 0x5000#16, 0xF000#16⟩, ⟨.loadImmediate, 0x6000#16, 0xF000#16⟩,
    ⟨.addImmediate, 0x7000#16, 0xF000#16⟩]

/-- The rows of R66 under top nibbles 8 to D. -/
def opcodeRowsMiddle : List OpcodeRow :=
  [⟨.assign, 0x8000#16, 0xF00F#16⟩, ⟨.or_, 0x8001#16, 0xF00F#16⟩,
    ⟨.and_, 0x8002#16, 0xF00F#16⟩, ⟨.xor, 0x8003#16, 0xF00F#16⟩,
    ⟨.add, 0x8004#16, 0xF00F#16⟩, ⟨.sub, 0x8005#16, 0xF00F#16⟩,
    ⟨.shiftRight, 0x8006#16, 0xF00F#16⟩, ⟨.subReverse, 0x8007#16, 0xF00F#16⟩,
    ⟨.shiftLeft, 0x800E#16, 0xF00F#16⟩, ⟨.skipIfRegistersNotEqual, 0x9000#16, 0xF000#16⟩,
    ⟨.loadIndex, 0xA000#16, 0xF000#16⟩, ⟨.jumpPlusV0, 0xB000#16, 0xF000#16⟩,
    ⟨.loadRandomMasked, 0xC000#16, 0xF000#16⟩, ⟨.drawSprite, 0xD000#16, 0xF000#16⟩]

/-- The rows of R66 under top nibbles E and F. -/
def opcodeRowsHigh : List OpcodeRow :=
  [⟨.skipIfKeyPressed, 0xE09E#16, 0xF0FF#16⟩, ⟨.skipIfKeyNotPressed, 0xE0A1#16, 0xF0FF#16⟩,
    ⟨.getDelay, 0xF007#16, 0xF0FF#16⟩, ⟨.waitForKey, 0xF00A#16, 0xF0FF#16⟩,
    ⟨.setDelay, 0xF015#16, 0xF0FF#16⟩, ⟨.setSound, 0xF018#16, 0xF0FF#16⟩,
    ⟨.addToIndex, 0xF01E#16, 0xF0FF#16⟩, ⟨.loadFontAddress, 0xF029#16, 0xF0FF#16⟩,
    ⟨.storeBcd, 0xF033#16, 0xF0FF#16⟩, ⟨.saveRegisters, 0xF055#16, 0xF0FF#16⟩,
    ⟨.loadRegisters, 0xF065#16, 0xF0FF#16⟩]

/-- The opcode table of R66: 34 rows. -/
def opcodeTable : List OpcodeRow := opcodeRowsLow ++ (opcodeRowsMiddle ++ opcodeRowsHigh)

end Sys2Proof
end

