-- ==== Sys2Proof/Machine/State.lean ====
section
/-! DEFINITION. The machine's state (10_state.md R10 to R29, R35), the errors of a step (60_exceptions.md R180) and the refusals
of the host interface. -/

namespace Sys2Proof.Machine

/-- The memory `M` as the sorted list of the bytes that are not what an unlisted address reads as (R19, R40). -/
abbrev Memory := List Host.Cell

/-- What an address that the memory does not list reads as: 0x00 (R35, D7: every byte outside the font and the program
is 0x00 after reset). -/
abbrev Memory.unlisted : Byte := 0x00#8

/-- The display buffer `FB`: row `y` is entry `y`, and column `x` of a row is its bit `x`, 1 for set (R23, R24). -/
abbrev Display := Vector (BitVec 64) 32

/-- The key latch `KEY`: `none` is `NONE`, `some k` is `KEY(k)`; seventeen values in all (R25). -/
abbrev Key := Option KeyCode

/-- The whole state of the core, one record (R28). `depth` of R20 is the length of `stack`. -/
structure State where
  /-- `V[0]` to `V[15]`; `VF` is `V[15]` (R10). -/
  v : Vector Byte 16
  /-- `PC` (R13). -/
  pc : Word
  /-- `I` (R15). -/
  i : Word
  /-- `DT` (R16). -/
  dt : Byte
  /-- `ST` (R17). -/
  st : Byte
  /-- `S`, oldest entry first (R20). -/
  stack : List Word
  /-- `M` (R19). -/
  mem : Memory
  /-- `FB` (R23). -/
  fb : Display
  /-- `KEY` (R25). -/
  key : Key
  /-- The configuration, which is not state of the spec (R27): no step changes it (assumption 2). -/
  cfg : Config
  /-- The model's own: how many random bytes have been drawn (R131; assumption 3). -/
  draws : Nat
deriving DecidableEq, Repr

/-- The errors that end a step (R180), each with its `info`. All are raised by `step`, and none changes any state but the fetch
advance of `PC` (R185). -/
inductive Fault where
  /-- Raised by fetch, `DRW`, `LD B`, `LD [I]`, `LD Vx, [I]` on an address above 0xFFF; `addr` is the lowest such address
  (R181). Safe: the spec's own fatal error. -/
  | outOfRangeAddress (addr : Nat)
  /-- Raised by `RET` on an empty stack (R182). Safe: the spec's own fatal error. -/
  | stackUnderflow
  /-- Raised by `CALL` when the stack holds `STACK_LIMIT` entries (R183). Safe: the spec's own fatal error. -/
  | stackOverflow
  /-- Raised by an `Unknown` word `op` under `STRICT_UNKNOWN` (R184, R170). Safe: the spec's own fatal error. -/
  | unknownInstruction (op : Word)
deriving DecidableEq, Repr

/-- The numeric code of an error (R180). -/
def Fault.code : Fault → Nat
  | .outOfRangeAddress _ => 1
  | .stackUnderflow => 2
  | .stackOverflow => 3
  | .unknownInstruction _ => 4

/-- What the model refuses. `step` never answers with one; the host events of Machine/Events.lean do. -/
inductive Refusal where
  /-- Raised by an arm of `exec` whose instruction has no meaning yet; no arm is. Safe. -/
  | notModelled (mnemonic : String)
  /-- Raised by `SETKEY` with a byte that is no key code and not the sentinel (R196, D36). Safe. -/
  | illegalKeyByte (code : Byte)
  /-- Raised by `RESET` with a ROM over 3584 bytes or a FONT not of 80 bytes (R211, D8). Safe. -/
  | illegalImage (romLength fontLength : Nat)
  /-- Raised by `RESET` with a configuration that R4 excludes (`STACK_LIMIT` 0). Safe. -/
  | illegalConfig
  /-- Raised by any event but `RESET` before the first `RESET` (R212). Safe. -/
  | notYetReset
deriving DecidableEq, Repr

/-- What a meaning answers. -/
abbrev Result := Host.Outcome State Fault Refusal

/-- The state after `RESET` with an empty ROM, a FONT of 80 zero bytes and the default configuration (R35, R210). The program
and the font are inputs of reset; Machine/Events.lean resets with any (assumption 5). -/
def State.reset : State :=
  { v := Vector.replicate 16 0x00#8
    pc := resetPc
    i := 0x0000#16
    dt := 0x00#8
    st := 0x00#8
    stack := []
    mem := []
    fb := Vector.replicate 32 0#64
    key := none
    cfg := Config.default
    draws := 0 }

end Sys2Proof.Machine
end

