-- ==== Sys2Proof/Machine/Ops.lean ====
section
/-! DEFINITION. The named operations over registers, memory, stack, display and program counter that the meanings share, and
raising an error. -/

namespace Sys2Proof.Machine

/-! ## Raising an error (60_exceptions.md R185, R186) -/

/-- `raise E(info)`: the step ends as a fault. There is no handler, vector, saved register or mode change (R186), hence no return
either (R189); the state the fault leaves is `afterStep` of Machine/Events.lean (R185). -/
def raise (e : Fault) : Result := .fault e

/-- Go on with the value of an access, or raise its error. -/
def orRaise {α : Type} (r : Except Fault α) (k : α → Result) : Result :=
  match r with
  | .ok a => k a
  | .error e => raise e

/-! ## Registers and program counter -/

/-- Read `V[x]` (R10). -/
def State.reg (s : State) (x : Reg) : Byte := s.v[x.val]

/-- `V[x] <- b` (R10). -/
def State.setReg (s : State) (x : Reg) (b : Byte) : State := { s with v := s.v.set x.val b }

/-- `VF`, the name of `V[15]` (R10, R12). -/
abbrev regF : Reg := 15

/-- `PC <- a` (R13). -/
def State.setPc (s : State) (a : Word) : State := { s with pc := a }

/-- `PC <- (PC + 2) mod 65536`: the fetch advance, and the `skip` of 00_scope.md section 4 (R14). -/
def State.advance (s : State) : State := s.setPc (s.pc + 2#16)

/-- `PC <- (PC - 2) mod 65536`: undoing the fetch advance (R14, R153). -/
def State.retreat (s : State) : State := s.setPc (s.pc - 2#16)

/-- `I <- a` (R15). -/
def State.setI (s : State) (a : Word) : State := { s with i := a }

/-- `DT <- b` (R16). -/
def State.setDt (s : State) (b : Byte) : State := { s with dt := b }

/-- `ST <- b` (R17). -/
def State.setSt (s : State) (b : Byte) : State := { s with st := b }

/-- Count one more draw of the random byte (R131; assumption 3). -/
def State.countDraw (s : State) : State := { s with draws := s.draws + 1 }

/-! ## The call stack (10_state.md R20 to R22) -/

/-- Replace the stack. -/
def State.setStack (s : State) (st : List Word) : State := { s with stack := st }

/-- `Push(v)` (R21). -/
def State.push (s : State) (v : Word) : Except Fault State :=
  if s.stack.length = s.cfg.stackLimit then .error .stackOverflow else .ok (s.setStack (s.stack ++ [v]))

/-- `Pop()`: the newest entry and the state without it (R22). -/
def State.pop (s : State) : Except Fault (Word × State) :=
  match s.stack.getLast? with
  | none => .error .stackUnderflow
  | some a => .ok (a, s.setStack s.stack.dropLast)

/-! ## Memory (20_memory.md R41 to R43) -/

/-- The byte at an address: the listed byte, or what an unlisted address reads as. -/
def Memory.read : Memory → Nat → Byte
  | [], _ => Memory.unlisted
  | (c, d) :: m, a => if a = c then d else Memory.read m a

/-- Put a byte that is not the unlisted one at its place in the sorted list. -/
def Memory.insert : Memory → Nat → Byte → Memory
  | [], a, b => [(a, b)]
  | (c, d) :: m, a, b =>
    if a < c then (a, b) :: (c, d) :: m
    else if a = c then (a, b) :: m
    else (c, d) :: Memory.insert m a b

/-- `M[a] <- b`: writing the unlisted byte removes the entry, so that equal memories are equal lists. -/
def Memory.write (m : Memory) (a : Nat) (b : Byte) : Memory :=
  if b = Memory.unlisted then m.filter (fun c => c.1 != a) else m.insert a b

/-- Addresses strictly rising from `lo` on, all in the address space, and no entry equal to the unlisted byte. -/
def Memory.wfFrom (lo : Nat) : Memory → Bool
  | [] => true
  | (a, b) :: m => decide (lo ≤ a) && decide (a < memSize) && (b != Memory.unlisted) && Memory.wfFrom (a + 1) m

/-- The canonical form of a memory. -/
def Memory.wf (m : Memory) : Bool := Memory.wfFrom 0 m

/-- Bytes written one after the other from an address on. -/
def Memory.writeList (m : Memory) (a : Nat) : List Byte → Memory
  | [] => m
  | b :: bs => Memory.writeList (m.write a b) (a + 1) bs

/-- Replace the memory. -/
def State.setMem (s : State) (m : Memory) : State := { s with mem := m }

/-- The byte that an address of the memory holds. -/
def State.byteAt (s : State) (a : Nat) : Byte := s.mem.read a

/-- `MemRead(addr, 1)` (R41). -/
def State.memRead (s : State) (a : Nat) : Except Fault Byte :=
  if a < memSize then .ok (s.byteAt a) else .error (.outOfRangeAddress a)

/-- `MemWrite(addr, 1, v)` (R42). -/
def State.memWrite (s : State) (a : Nat) (b : Byte) : Except Fault State :=
  if a < memSize then .ok (s.setMem (s.mem.write a b)) else .error (.outOfRangeAddress a)

/-- Some address of the `len` bytes from `base` on is above 0xFFF; no byte, no address (R43, R181). -/
def spanOutOfRange (base len : Nat) : Bool := decide (len ≠ 0) && decide (memSize < base + len)

/-- The check of all of an instruction's addresses before it writes anything; the address reported is the lowest out of range
(R43, D23). -/
def checkSpan (base len : Nat) : Except Fault Unit :=
  if spanOutOfRange base len then .error (.outOfRangeAddress (max base memSize)) else .ok ()

/-- `[ MemRead(base + k, 1) for k in 0..len-1 ]`. -/
def State.readBytes (s : State) (base : Nat) : Nat → Except Fault (List Byte)
  | 0 => .ok []
  | len + 1 =>
    match s.memRead base with
    | .error e => .error e
    | .ok b =>
      match State.readBytes s (base + 1) len with
      | .error e => .error e
      | .ok bs => .ok (b :: bs)

/-- `MemWrite(base + k, 1, bs[k])`, ascending. -/
def State.writeBytes (s : State) (base : Nat) : List Byte → Except Fault State
  | [] => .ok s
  | b :: bs =>
    match s.memWrite base b with
    | .error e => .error e
    | .ok t => State.writeBytes t (base + 1) bs

/-- Read `len` bytes from `base` on, after the check of all their addresses (R43). -/
def State.loadSpan (s : State) (base len : Nat) : Except Fault (List Byte) :=
  match checkSpan base len with
  | .error e => .error e
  | .ok () => s.readBytes base len

/-- Write bytes from `base` on, after the check of all their addresses (R43). -/
def State.storeSpan (s : State) (base : Nat) (bs : List Byte) : Except Fault State :=
  match checkSpan base bs.length with
  | .error e => .error e
  | .ok () => s.writeBytes base bs

/-- Fetch: the two bytes at `PC` and `PC + 1`, the first high (R44, R63). -/
def State.fetch (s : State) : Except Fault Word :=
  match s.memRead s.pc.toNat with
  | .error e => .error e
  | .ok hi =>
    match s.memRead (s.pc.toNat + 1) with
    | .error e => .error e
    | .ok lo => .ok (wordOfBytes hi lo)

/-- The state with a word stored where it is fetched next, high byte first (R44); nothing where `PC` is above 0xFFE, since no
instruction can be there (R63). -/
def State.placeWord (s : State) (op : Word) : State :=
  if s.pc.toNat + 1 < memSize then
    s.setMem ((s.mem.write s.pc.toNat (highByte op)).write (s.pc.toNat + 1) (lowByte op))
  else s

/-! ## The display buffer and the sprite-draw controller (10_state.md R23, R24; 43_display.md R141) -/

/-- Replace the display buffer. -/
def State.setFb (s : State) (fb : Display) : State := { s with fb := fb }

/-- The cell for coordinates `(cx, cy)`, any natural numbers: `FB[cx mod 64][cy mod 32]` (R24). -/
def Display.cell (fb : Display) (cx cy : Nat) : Bool :=
  (fb[cy % 32]'(Nat.mod_lt cy (by decide))).getLsbD (cx % 64)

/-- Exclusive-or 1 into the cell for `(cx, cy)`. -/
def Display.flip (fb : Display) (cx cy : Nat) : Display :=
  fb.set (cy % 32) ((fb[cy % 32]'(Nat.mod_lt cy (by decide))) ^^^ BitVec.twoPow 64 (cx % 64)) (Nat.mod_lt cy (by decide))

/-- Every cell unset (R140). -/
def Display.clear : Display := Vector.replicate 32 0#64

/-- The display as one vector of 2048 bits, cell `(x, y)` at position `y * 64 + x` (R24, D24). -/
def Display.toVector (fb : Display) : List Bool :=
  (List.range (dispWidth * dispHeight)).map fun k => Display.cell fb (k % dispWidth) (k / dispWidth)

/-- A drawing in progress: the display buffer, and whether a set cell has been turned off (R141). -/
abbrev Drawing := Display × Bool

/-- One sprite pixel: a 1 bit is exclusive-ored into its cell and collides with a set cell; a 0 bit does nothing (R141). -/
def drawPixel (d : Drawing) (cx cy : Nat) (bit : Bool) : Drawing :=
  if bit then (Display.flip d.1 cx cy, d.2 || Display.cell d.1 cx cy) else d

/-- One sprite row: column offset `c` is bit `7 - c` of its byte (R141, D24). -/
def drawRow (d : Drawing) (px cy : Nat) (row : Byte) : Drawing :=
  (List.range 8).foldl (fun d c => drawPixel d (px + c) cy (row.getLsbD (7 - c))) d

/-- The rows of a sprite, downward from row `py` (R141). -/
def drawRows (d : Drawing) (px py : Nat) : List Byte → Drawing
  | [] => d
  | row :: rows => drawRows (drawRow d px py row) px (py + 1) rows

/-- `drawSprite(x, y, spriteBytes) -> collided` (R141). -/
def drawSprite (fb : Display) (px py : Nat) (rows : List Byte) : Drawing := drawRows (fb, false) px py rows

end Sys2Proof.Machine
end

