-- ==== Sys2Proof/Machine/Operands.lean ====
section
/-! DEFINITION. The operand forms of the instructions (30_encoding.md R62, 20_memory.md R43): register blocks, effective
addresses, glyph addresses, decimal digits and the key comparison. A register operand is `State.reg`, an immediate is used
as it is. -/

namespace Sys2Proof.Machine

/-- An effective address: the natural-number sum of `I` and a small offset, never reduced (R43). -/
def State.effectiveAddress (s : State) (offset : Nat) : Nat := s.i.toNat + offset

/-- The target of a transfer with a 12-bit address field (R101, R102). -/
def jumpTarget (nnn : Addr) : Word := nnn.zext

/-- The target of `JP V0, nnn`: `nnn + V[0]` in 16 bits (R103, D17). -/
def State.jumpTargetV0 (s : State) (nnn : Addr) : Word := nnn.zext + (s.reg 0).zext

/-- `FONT_BASE + 5 * (V[x] & 0x0F)`: the address of a hex digit's glyph (R51, R162). -/
def State.glyphAddress (s : State) (b : Byte) : Word :=
  BitVec.ofNat 16 (s.cfg.fontBase.val + glyphBytes * (b &&& 0x0F#8).toNat)

/-- The three decimal digits of a byte, hundreds first (R163, D21). -/
def decimalDigits (b : Byte) : List Byte :=
  [BitVec.ofNat 8 (b.toNat / 100), BitVec.ofNat 8 (b.toNat / 10 % 10), BitVec.ofNat 8 (b.toNat % 10)]

/-- The block `V[0]` to `V[x]` (R164). -/
def State.regBlock (s : State) (x : Reg) : List Byte := s.v.toList.take (x.val + 1)

/-- `V[k] <- b` for ascending registers `k` from `k` on; past `V[15]` there is no register (R165). -/
def State.setRegsFrom (s : State) (k : Nat) : List Byte → State
  | [] => s
  | b :: bs => State.setRegsFrom (if h : k < 16 then s.setReg ⟨k, h⟩ b else s) (k + 1) bs

/-- The key latch holds the key whose code equals the whole byte: `NONE` equals no byte, and a byte above 15 no code
(R150, D19). -/
def State.keyPressed (s : State) (b : Byte) : Bool :=
  match s.key with
  | none => false
  | some k => decide (k.val = b.toNat)

end Sys2Proof.Machine
end

