-- ==== Sys2Proof/Machine/Flags.lean ====
section
/-! DEFINITION. The values that go to `VF`, the only flag, and the order of writing it (10_state.md R12, 42_load_alu.md R132). -/

namespace Sys2Proof.Machine

/-- A flag value is the byte 0 or 1 (R12). -/
def flagByte (p : Bool) : Byte := if p then 0x01#8 else 0x00#8

/-- The carry of `a + b` out of bit 7 (R126). -/
def carryFlag (a b : Byte) : Byte := flagByte (decide (255 < a.toNat + b.toNat))

/-- No borrow in `a - b`, equality counting as no borrow (R127, R129, D13). -/
def notBorrowFlag (a b : Byte) : Byte := flagByte (decide (b.toNat ≤ a.toNat))

/-- The bit a right shift moves out, bit 0 (R128). -/
def shiftedOutRight (b : Byte) : Byte := flagByte (b.getLsbD 0)

/-- The bit a left shift moves out, bit 7 (R130). -/
def shiftedOutLeft (b : Byte) : Byte := flagByte (b.getLsbD 7)

/-- A draw's collision (R141). -/
def collisionFlag (collided : Bool) : Byte := flagByte collided

/-- The result to `V[x]`, then the flag to `VF` as the last write, so that with `x == 15` the flag replaces the result
(R12, R222). -/
def State.resultThenFlag (s : State) (x : Reg) (result flag : Byte) : State := (s.setReg x result).setReg regF flag

end Sys2Proof.Machine
end

