-- ==== Sys2Proof/Machine/ControlFlow.lean ====
section
/-! DEFINITION. 40_control_flow.md: `RET`, `JP`, `CALL`, `JP V0`. On entry `PC` is the post-fetch counter (R13). -/

namespace Sys2Proof.Machine

/-- `00EE` `RET`: `PC <- Pop()` (R100). -/
def execRet (s : State) : Result := orRaise s.pop fun p => .next (p.2.setPc p.1)

/-- `1NNN` `JP nnn`: `PC <- nnn` (R101). -/
def execJp (nnn : Addr) (s : State) : Result := .next (s.setPc (jumpTarget nnn))

/-- `2NNN` `CALL nnn`: `Push(PC)`, then `PC <- nnn` (R102). -/
def execCall (nnn : Addr) (s : State) : Result := orRaise (s.push s.pc) fun t => .next (t.setPc (jumpTarget nnn))

/-- `BNNN` `JP V0, nnn`: `PC <- nnn + V[0]` (R103). -/
def execJpV0Nnn (nnn : Addr) (s : State) : Result := .next (s.setPc (s.jumpTargetV0 nnn))

end Sys2Proof.Machine
end

