-- ==== Sys2Proof/Machine/DisplayOps.lean ====
section
/-! DEFINITION. 43_display.md: `CLS` and `DRW`. -/

namespace Sys2Proof.Machine

/-- `00E0` `CLS`: every cell unset, nothing else (R140). -/
def execCls (s : State) : Result := .next (s.setFb Display.clear)

/-- `DXYN` `DRW Vx, Vy, n`: the `n` bytes at `I` drawn at column `V[x]`, row `V[y]`, then the collision to `VF` as the last write;
with `n == 0` no address is read (R141, D25). -/
def execDrw (x y : Reg) (n : Nat) (s : State) : Result :=
  orRaise (s.loadSpan (s.effectiveAddress 0) n) fun rows =>
    let d := drawSprite s.fb (s.reg x).toNat (s.reg y).toNat rows
    .next ((s.setFb d.1).setReg regF (collisionFlag d.2))

end Sys2Proof.Machine
end

