-- ==== Sys2Proof/Machine/IndexMemory.lean ====
section
/-! DEFINITION. 45_index_memory.md: the index register, the font address, BCD, and saving and loading registers. -/

namespace Sys2Proof.Machine

/-- `ANNN` `LD I, nnn` (R160). -/
def execLdINnn (nnn : Addr) (s : State) : Result := .next (s.setI nnn.zext)

/-- `FX1E` `ADD I, Vx`: modulo 65536, no flag, no range check (R161, D16). -/
def execAddIVx (x : Reg) (s : State) : Result := .next (s.setI (s.i + (s.reg x).zext))

/-- `FX29` `LD F, Vx`: the address of the glyph of the low nibble (R162). -/
def execLdFVx (x : Reg) (s : State) : Result := .next (s.setI (s.glyphAddress (s.reg x)))

/-- `FX33` `LD B, Vx`: the decimal digits of `V[x]` to `I`, `I + 1`, `I + 2` (R163). -/
def execLdBVx (x : Reg) (s : State) : Result :=
  orRaise (s.storeSpan (s.effectiveAddress 0) (decimalDigits (s.reg x))) fun t => .next t

/-- `FX55` `LD [I], Vx`: `V[0]` to `V[x]` to memory from `I` on (R164). -/
def execLdMemVx (x : Reg) (s : State) : Result :=
  orRaise (s.storeSpan (s.effectiveAddress 0) (s.regBlock x)) fun t => .next t

/-- `FX65` `LD Vx, [I]`: memory from `I` on to `V[0]` to `V[x]` (R165). -/
def execLdVxMem (x : Reg) (s : State) : Result :=
  orRaise (s.loadSpan (s.effectiveAddress 0) (x.val + 1)) fun bs => .next (s.setRegsFrom 0 bs)

end Sys2Proof.Machine
end

