-- ==== Sys2Proof/Machine/Skip.lean ====
section
/-! DEFINITION. 41_skip.md: the conditional skips on registers. On entry `PC` is the post-fetch counter. -/

namespace Sys2Proof.Machine

/-- Skip the next instruction when the predicate holds (41_skip.md, R14). -/
def skipWhen (p : Bool) (s : State) : Result := .next (if p then s.advance else s)

/-- `3XNN` `SE Vx, nn` (R110). -/
def execSeVxNn (x : Reg) (nn : Byte) (s : State) : Result := skipWhen (s.reg x == nn) s

/-- `4XNN` `SNE Vx, nn` (R111). -/
def execSneVxNn (x : Reg) (nn : Byte) (s : State) : Result := skipWhen (s.reg x != nn) s

/-- `5XY-` `SE Vx, Vy` (R112). -/
def execSeVxVy (x y : Reg) (s : State) : Result := skipWhen (s.reg x == s.reg y) s

/-- `9XY-` `SNE Vx, Vy` (R113). -/
def execSneVxVy (x y : Reg) (s : State) : Result := skipWhen (s.reg x != s.reg y) s

end Sys2Proof.Machine
end

