-- ==== Sys2Proof/Machine/KeyTimer.lean ====
section
/-! DEFINITION. 44_key_timer.md: the key skips, the wait for a key and the timer accesses. -/

namespace Sys2Proof.Machine

/-- `EX9E` `SKP Vx` (R150). -/
def execSkp (x : Reg) (s : State) : Result := skipWhen (s.keyPressed (s.reg x)) s

/-- `EXA1` `SKNP Vx`, the exact complement (R151). -/
def execSknp (x : Reg) (s : State) : Result := skipWhen (!s.keyPressed (s.reg x)) s

/-- `FX07` `LD Vx, DT` (R152). -/
def execLdVxDt (x : Reg) (s : State) : Result := .next (s.setReg x s.dt)

/-- The byte of a key code (R25, R153). -/
def keyByte (k : KeyCode) : Byte := BitVec.ofNat 8 k.val

/-- `FX0A` `LD Vx, K`: with no key latched the fetch advance is undone and nothing else changes, outcome `WAITING` (see
`outcomeOf` of Machine/Events.lean); with a key latched its code goes to `V[x]` and the latch stays (R153, D20). -/
def execLdVxK (x : Reg) (s : State) : Result :=
  match s.key with
  | none => .next s.retreat
  | some k => .next (s.setReg x (keyByte k))

/-- `FX15` `LD DT, Vx` (R154). -/
def execLdDtVx (x : Reg) (s : State) : Result := .next (s.setDt (s.reg x))

/-- `FX18` `LD ST, Vx` (R155). -/
def execLdStVx (x : Reg) (s : State) : Result := .next (s.setSt (s.reg x))

end Sys2Proof.Machine
end

