-- ==== Sys2Proof/Machine/LoadAlu.lean ====
section
/-! DEFINITION. 42_load_alu.md: register loads, arithmetic, logic, shifts and the random byte. -/

namespace Sys2Proof.Machine

/-- `6XNN` `LD Vx, nn`: `V[x] <- nn` (R120). -/
def execLdVxNn (x : Reg) (nn : Byte) (s : State) : Result := .next (s.setReg x nn)

/-- `7XNN` `ADD Vx, nn`: `V[x] <- (V[x] + nn) mod 256`, no flag (R121). -/
def execAddVxNn (x : Reg) (nn : Byte) (s : State) : Result := .next (s.setReg x (s.reg x + nn))

/-- `8XY0` `LD Vx, Vy`: `V[x] <- V[y]` (R122). -/
def execLdVxVy (x y : Reg) (s : State) : Result := .next (s.setReg x (s.reg y))

/-- `8XY1` `OR Vx, Vy` (R123). -/
def execOrVxVy (x y : Reg) (s : State) : Result := .next (s.setReg x (s.reg x ||| s.reg y))

/-- `8XY2` `AND Vx, Vy` (R124). -/
def execAndVxVy (x y : Reg) (s : State) : Result := .next (s.setReg x (s.reg x &&& s.reg y))

/-- `8XY3` `XOR Vx, Vy` (R125). -/
def execXorVxVy (x y : Reg) (s : State) : Result := .next (s.setReg x (s.reg x ^^^ s.reg y))

/-- `8XY4` `ADD Vx, Vy`: the sum, then the carry (R126). -/
def execAddVxVy (x y : Reg) (s : State) : Result :=
  .next (s.resultThenFlag x (s.reg x + s.reg y) (carryFlag (s.reg x) (s.reg y)))

/-- `8XY5` `SUB Vx, Vy`: `V[x] - V[y]`, then not-borrow (R127). -/
def execSubVxVy (x y : Reg) (s : State) : Result :=
  .next (s.resultThenFlag x (s.reg x - s.reg y) (notBorrowFlag (s.reg x) (s.reg y)))

/-- `8XY6` `SHR Vx, Vy`: `V[y] >> 1` to `V[x]`, then the bit shifted out (R128). -/
def execShrVxVy (x y : Reg) (s : State) : Result :=
  .next (s.resultThenFlag x (s.reg y >>> 1) (shiftedOutRight (s.reg y)))

/-- `8XY7` `SUBN Vx, Vy`: `V[y] - V[x]`, then not-borrow (R129). -/
def execSubnVxVy (x y : Reg) (s : State) : Result :=
  .next (s.resultThenFlag x (s.reg y - s.reg x) (notBorrowFlag (s.reg y) (s.reg x)))

/-- `8XYE` `SHL Vx, Vy`: `V[y] << 1` to `V[x]`, then the bit shifted out (R130). -/
def execShlVxVy (x y : Reg) (s : State) : Result :=
  .next (s.resultThenFlag x (s.reg y <<< 1) (shiftedOutLeft (s.reg y)))

/-- `V[x] <- rnd & nn` for the random byte `rnd` of the step (R131). -/
def loadRandomMasked (rnd : Byte) (x : Reg) (nn : Byte) (s : State) : State := s.setReg x (rnd &&& nn)

/-- `CXNN` `RND Vx, nn`: the step's random byte is the free value of the next draw (R131, D18; assumption 3). -/
def execRndVxNn (x : Reg) (nn : Byte) (s : State) : Result :=
  .next (loadRandomMasked (Config.randomByte s.draws) x nn s.countDraw)

end Sys2Proof.Machine
end

