-- ==== Sys2Proof/Machine/Unknown.lean ====
section
/-! DEFINITION. 46_unknown.md: executing a word of kind `Unknown`, the original machine-code call `0NNN` among them (R170, R171). -/

namespace Sys2Proof.Machine

/-- An `Unknown` word changes no state beyond the fetch advance. Under `STRICT_UNKNOWN` it raises `UnknownInstruction(op)`; otherwise
the step goes on and is reported as `UNKNOWN(op)` (R170; `outcomeOf` of Machine/Events.lean). -/
def execUnknown (op : Word) (s : State) : Result :=
  if s.cfg.strictUnknown then raise (.unknownInstruction op) else .next s

end Sys2Proof.Machine
end

