-- ==== Sys2Proof/Machine/Step.lean ====
section
/-! DEFINITION. `STEP`: one fetch, one decode, one execute (10_state.md R34, 60_exceptions.md R187). -/

namespace Sys2Proof.Machine

/-- Execute a decoded word, `PC` being the post-fetch counter (R34 step 4). -/
def execDecoded (d : Decoded) (s : State) : Result :=
  match d with
  | .recognised i => exec i s
  | .unknown op => execUnknown op s

/-- One step: fetch the two bytes at `PC`, advance `PC` by 2, decode, execute. A fetch that fails raises its error before the advance
(R34, R63, R187). -/
def step (s : State) : Host.Outcome State Fault Refusal :=
  orRaise s.fetch fun op => execDecoded (decodeWord op) s.advance

/-- The state with the instruction `w` (its bits above `nbits` 0) stored where the next step fetches it. The machine fetches at `PC`, so
nothing else has to change. -/
def State.withFetchWord (s : State) (nbits w : Nat) : State := s.placeWord (BitVec.ofNat 16 (w % 2 ^ nbits))

end Sys2Proof.Machine
end

