-- ==== Sys2Proof/Machine/Events.lean ====
section
/-! DEFINITION. The core as its host sees it: the events of 10_state.md R31, the outcome of a step (R33), the state a fault leaves
(60_exceptions.md R185, R189) and the trace record (R201). -/

namespace Sys2Proof.Machine

/-! ## The outcome of a step (R33) -/

/-- The outcome of a step (R33). -/
inductive StepOutcome where
  | ok
  | waiting
  | unknown (op : Word)
  | fault (e : Fault)
deriving DecidableEq, Repr

/-- The numeric code of an outcome (R33). -/
def StepOutcome.code : StepOutcome → Nat
  | .ok => 0
  | .waiting => 1
  | .unknown _ => 2
  | .fault _ => 3

/-- The outcome that a step which did not fault reports, by what was decoded (R33, R153, R170). -/
def goodOutcome (d : Decoded) (s : State) : StepOutcome :=
  match d with
  | .unknown op => .unknown op
  | .recognised (.ldVxK _) => if s.key = none then .waiting else .ok
  | .recognised _ => .ok

/-- The outcome of executing a decoded word. `refused` cannot come from it (assumption 6). -/
def executeOutcome (d : Decoded) (s : State) : StepOutcome :=
  match execDecoded d s with
  | .fault e => .fault e
  | _ => goodOutcome d s

/-- The outcome of `STEP` (R33). -/
def outcomeOf (s : State) : StepOutcome :=
  match s.fetch with
  | .error e => .fault e
  | .ok op => executeOutcome (decodeWord op) s.advance

/-! ## The state after a step (R33, R185, R189) -/

/-- The state an answer leaves: the next state, or the one the meaning was entered with, since an error discards every effect of
execute (R185). -/
def stateOr (r : Result) (s : State) : State :=
  match r with
  | .next t => t
  | _ => s

/-- The state after `STEP`, whatever its outcome: after a fetch fault nothing has changed, after an execute fault only the fetch
advance has happened (R185), and the core stays ready for the next event (R189). -/
def afterStep (s : State) : State :=
  match s.fetch with
  | .error _ => s
  | .ok op => stateOr (execDecoded (decodeWord op) s.advance) s.advance

/-! ## The trace record (R201) -/

/-- The trace record `(pc, op, kind)`; `op` and `kind` are absent for a fault in fetch (R201, D38). -/
structure TraceRecord where
  pc : Word
  op : Option Word
  kind : Option Kind
deriving DecidableEq, Repr

/-- The trace record of the next step (R201). -/
def traceOf (s : State) : TraceRecord :=
  match s.fetch with
  | .error _ => { pc := s.pc, op := none, kind := none }
  | .ok op => { pc := s.pc, op := some op, kind := some (describe op).kind }

/-! ## The host's moves -/

/-- A counter one lower, floored at zero (R193). -/
def tickDown (b : Byte) : Byte := if b = 0x00#8 then b else b - 1#8

/-- `TICK_DELAY` (R193). -/
def State.tickDelay (s : State) : State := s.setDt (tickDown s.dt)

/-- `TICK_SOUND` (R193). -/
def State.tickSound (s : State) : State := s.setSt (tickDown s.st)

/-- `SETKEY(v)` (R196). -/
def State.setKey (s : State) (k : Key) : State := { s with key := k }

/-- The key latch value that a byte encodes: 0x00 to 0x0F, and 0xFF for `NONE` (R25, D36). -/
def keyOfByte (b : Byte) : Option Key :=
  if b = 0xFF#8 then some none
  else if h : b.toNat < 16 then some (some ⟨b.toNat, h⟩)
  else none

/-- The byte that encodes a key latch value (R25, D36). -/
def byteOfKey : Key → Byte
  | none => 0xFF#8
  | some k => BitVec.ofNat 8 k.val

/-- The optional output `st_nonzero` (R31, R199). -/
def State.stNonzero (s : State) : Bool := s.st != 0x00#8

/-- Set the configuration. -/
def State.setCfg (s : State) (c : Config) : State := { s with cfg := c }

/-- Set the count of random draws. -/
def State.setDraws (s : State) (n : Nat) : State := { s with draws := n }

/-- The memory after reset: the font at `FONT_BASE`, the program at 0x200, every other byte 0x00 (R35, R210). -/
def resetMemory (c : Config) (rom font : List Byte) : Memory :=
  Memory.writeList (Memory.writeList [] c.fontBase.val font) romBase rom

/-- `RESET(ROM, FONT)` with a configuration (R210 to R212): refused for images of other lengths and for a configuration R4 excludes.
`draws` is the model's own count, which goes on so that no two draws are ever the same one (assumption 3). -/
def State.resetWith (draws : Nat) (c : Config) (rom font : List Byte) : Except Refusal State :=
  if c.wf = false then .error .illegalConfig
  else if maxRomBytes < rom.length ∨ font.length ≠ fontBytes then .error (.illegalImage rom.length font.length)
  else .ok (((State.reset.setCfg c).setMem (resetMemory c rom font)).setDraws draws)

/-! ## Events (R31, R32) -/

/-- The events of the core. `STEP` takes its random byte from the free value; `SETKEY` takes the byte encoding of R25 (R31). -/
inductive Event where
  | reset (c : Config) (rom font : List Byte)
  | step
  | setKey (b : Byte)
  | tickDelay
  | tickSound
  | readDisplay
deriving DecidableEq, Repr

/-- What an event gives the host (R31). -/
inductive Output where
  | none
  | stepped (outcome : StepOutcome) (trace : TraceRecord)
  | display (cells : List Bool)
deriving DecidableEq, Repr

/-- An event of the running machine, other than reset. -/
def runningEvent (s : State) : Event → Except Refusal (State × Output)
  | .reset c rom font => (State.resetWith s.draws c rom font).map fun t => (t, .none)
  | .step => .ok (afterStep s, .stepped (outcomeOf s) (traceOf s))
  | .setKey b =>
    match keyOfByte b with
    | some k => .ok (s.setKey k, .none)
    | none => .error (.illegalKeyByte b)
  | .tickDelay => .ok (s.tickDelay, .none)
  | .tickSound => .ok (s.tickSound, .none)
  | .readDisplay => .ok (s, .display (Display.toVector s.fb))

/-- An event of the machine, which before its first reset has no state and accepts no other event (R212). -/
def applyEvent (m : Option State) (e : Event) : Except Refusal (State × Output) :=
  match m with
  | some s => runningEvent s e
  | none =>
    match e with
    | .reset c rom font => (State.resetWith 0 c rom font).map fun t => (t, .none)
    | _ => .error .notYetReset

/-- Events one after the other, in the order given (R32). -/
def runEvents (m : Option State) : List Event → Except Refusal (Option State × List Output)
  | [] => .ok (m, [])
  | e :: es =>
    match applyEvent m e with
    | .error r => .error r
    | .ok (t, o) =>
      match runEvents (some t) es with
      | .error r => .error r
      | .ok (u, os) => .ok (u, o :: os)

end Sys2Proof.Machine
end

