-- ==== Sys2Proof/Safety.lean ====
section
/-! DEFINITION. The terms that claims use: the parts of the state, what an instruction leaves unchanged, when each instruction
raises an error, the invariant of the machine, and a safe run. -/

namespace Sys2Proof.Machine

/-! ## Parts of the state and frames -/

/-- The parts of the state (10_state.md R10 to R27). `draws` is the model's own (assumption 3). -/
inductive Part where
  | regs | pc | index | delay | sound | stack | memory | display | key | config | draws
deriving DecidableEq, Repr

/-- A part reads the same in two states; registers and memory are compared by reading each register and each byte. -/
def SameIn (p : Part) (s t : State) : Prop :=
  match p with
  | .regs => ∀ r : Reg, t.reg r = s.reg r
  | .pc => t.pc = s.pc
  | .index => t.i = s.i
  | .delay => t.dt = s.dt
  | .sound => t.st = s.st
  | .stack => t.stack = s.stack
  | .memory => ∀ a : Nat, t.byteAt a = s.byteAt a
  | .display => t.fb = s.fb
  | .key => t.key = s.key
  | .config => t.cfg = s.cfg
  | .draws => t.draws = s.draws

/-- Nothing changed from `s` to `t` outside the listed parts. -/
def ChangesOnly (parts : List Part) (s t : State) : Prop := ∀ p : Part, p ∉ parts → SameIn p s t

/-- Every register but `x` is unchanged. -/
def KeepsRegsBut (x : Reg) (s t : State) : Prop := ∀ r : Reg, r ≠ x → t.reg r = s.reg r

/-- Every register but `x` and `VF` is unchanged. -/
def KeepsRegsButFlag (x : Reg) (s t : State) : Prop := ∀ r : Reg, r ≠ x → r ≠ regF → t.reg r = s.reg r

/-- Every byte outside the `len` bytes from `base` on is unchanged. -/
def KeepsBytesOutside (base len : Nat) (s t : State) : Prop :=
  ∀ a : Nat, ¬ (base ≤ a ∧ a < base + len) → t.byteAt a = s.byteAt a

/-! ## What each instruction may write (R12, R14 to R17, R20, R23, R25, R27, R47) -/

/-- The parts that an instruction may change in its execute phase. -/
def Instr.parts : Instr → List Part
  | .cls => [.display]
  | .ret | .call _ => [.pc, .stack]
  | .jp _ | .jpV0Nnn _ => [.pc]
  | .seVxNn _ _ | .sneVxNn _ _ | .seVxVy _ _ | .sneVxVy _ _ | .skp _ | .sknp _ => [.pc]
  | .ldVxNn _ _ | .addVxNn _ _ | .ldVxVy _ _ | .orVxVy _ _ | .andVxVy _ _ | .xorVxVy _ _ => [.regs]
  | .addVxVy _ _ | .subVxVy _ _ | .shrVxVy _ _ | .subnVxVy _ _ | .shlVxVy _ _ => [.regs]
  | .ldVxDt _ | .ldVxMem _ => [.regs]
  | .ldVxK _ => [.regs, .pc]
  | .rndVxNn _ _ => [.regs, .draws]
  | .drw _ _ _ => [.regs, .display]
  | .ldDtVx _ => [.delay]
  | .ldStVx _ => [.sound]
  | .ldINnn _ | .addIVx _ | .ldFVx _ => [.index]
  | .ldBVx _ | .ldMemVx _ => [.memory]

/-- The instructions that write `VF` as a side effect (R12). -/
def Instr.writesFlag : Instr → Bool
  | .addVxVy _ _ | .subVxVy _ _ | .shrVxVy _ _ | .subnVxVy _ _ | .shlVxVy _ _ | .drw _ _ _ => true
  | .cls | .ret | .jp _ | .call _ | .seVxNn _ _ | .sneVxNn _ _ | .seVxVy _ _ | .ldVxNn _ _ | .addVxNn _ _ => false
  | .ldVxVy _ _ | .orVxVy _ _ | .andVxVy _ _ | .xorVxVy _ _ | .sneVxVy _ _ | .ldINnn _ | .jpV0Nnn _ => false
  | .rndVxNn _ _ | .skp _ | .sknp _ | .ldVxDt _ | .ldVxK _ | .ldDtVx _ | .ldStVx _ | .addIVx _ | .ldFVx _ => false
  | .ldBVx _ | .ldMemVx _ | .ldVxMem _ => false

/-- The registers that an instruction names as its destination, through `x` or, for `LD Vx, [I]`, through `0..x` (R11, R12). -/
def Instr.destination (r : Reg) : Instr → Bool
  | .ldVxNn x _ | .addVxNn x _ | .ldVxVy x _ | .orVxVy x _ | .andVxVy x _ | .xorVxVy x _ => decide (r = x)
  | .addVxVy x _ | .subVxVy x _ | .shrVxVy x _ | .subnVxVy x _ | .shlVxVy x _ => decide (r = x)
  | .rndVxNn x _ | .ldVxDt x | .ldVxK x => decide (r = x)
  | .ldVxMem x => decide (r ≤ x)
  | .cls | .ret | .jp _ | .call _ | .seVxNn _ _ | .sneVxNn _ _ | .seVxVy _ _ | .sneVxVy _ _ | .ldINnn _ => false
  | .jpV0Nnn _ | .drw _ _ _ | .skp _ | .sknp _ | .ldDtVx _ | .ldStVx _ | .addIVx _ | .ldFVx _ | .ldBVx _ => false
  | .ldMemVx _ => false

/-! ## Sprites (43_display.md R141) -/

/-- The sprite of `DRW Vx, Vy, n` in state `s` has a 1 bit that lands on the cell `(cx, cy)`: row `r` is the byte at `I + r`, column
offset `c` is its bit `7 - c`, and the coordinates wrap. -/
def SpriteLandsOn (x y : Reg) (n : Nat) (s : State) (cx cy : Nat) : Prop :=
  ∃ r c : Nat, r < n ∧ c < 8 ∧ (s.byteAt (s.effectiveAddress r)).getLsbD (7 - c) = true ∧
    ((s.reg x).toNat + c) % 64 = cx ∧ ((s.reg y).toNat + r) % 32 = cy

/-! ## Errors (60_exceptions.md R181 to R184, R188) -/

/-- Some of the `len` bytes from `I` on have addresses above 0xFFF; the highest is `I + len - 1` (R43). -/
def State.spanFaults (s : State) (len : Nat) : Prop := 0 < len ∧ 0xFFF < s.effectiveAddress (len - 1)

/-- The error that an instruction raises in its execute phase, and when: no instruction raises any other (R181 to R183, R188). -/
def RaisesExactly (i : Instr) (s : State) (e : Fault) : Prop :=
  match i with
  | .ret => s.stack = [] ∧ e = .stackUnderflow
  | .call _ => s.stack.length = s.cfg.stackLimit ∧ e = .stackOverflow
  | .drw _ _ n => s.spanFaults n ∧ e = .outOfRangeAddress (max s.i.toNat 0x1000)
  | .ldBVx _ => s.spanFaults 3 ∧ e = .outOfRangeAddress (max s.i.toNat 0x1000)
  | .ldMemVx x | .ldVxMem x => s.spanFaults (x.val + 1) ∧ e = .outOfRangeAddress (max s.i.toNat 0x1000)
  | .cls | .jp _ | .seVxNn _ _ | .sneVxNn _ _ | .seVxVy _ _ | .ldVxNn _ _ | .addVxNn _ _ | .ldVxVy _ _ => False
  | .orVxVy _ _ | .andVxVy _ _ | .xorVxVy _ _ | .addVxVy _ _ | .subVxVy _ _ | .shrVxVy _ _ | .subnVxVy _ _ => False
  | .shlVxVy _ _ | .sneVxVy _ _ | .ldINnn _ | .jpV0Nnn _ | .rndVxNn _ _ | .skp _ | .sknp _ | .ldVxDt _ => False
  | .ldVxK _ | .ldDtVx _ | .ldStVx _ | .addIVx _ | .ldFVx _ => False

/-! ## Fetching -/

/-- An instruction can be fetched at `PC`: the highest address one starts at is 0xFFE (R63). -/
abbrev State.fetchable (s : State) : Prop := s.pc.toNat ≤ 0xFFE

/-- The word whose two bytes lie at `PC` and `PC + 1` (R44, R63). -/
def State.wordAtPc (s : State) : Word := wordOfBytes (s.byteAt s.pc.toNat) (s.byteAt (s.pc.toNat + 1))

/-- The instruction `i` is fetched at `PC`. -/
abbrev State.fetches (s : State) (i : Instr) : Prop := s.fetchable ∧ decodeWord s.wordAtPc = .recognised i

/-! ## The invariant and safe runs -/

/-- What holds of every state a run reaches: the configuration is one R4 admits, the stack holds at most `STACK_LIMIT` entries (R20),
the memory is in its canonical form, `PC` is at most 0x10FE (R14) and every stack entry at most 0x1000 (R100). -/
abbrev State.Inv (s : State) : Prop :=
  s.cfg.wf = true ∧ s.stack.length ≤ s.cfg.stackLimit ∧ s.mem.wf = true ∧ s.pc.toNat ≤ 0x10FE ∧
    ∀ a ∈ s.stack, a.toNat ≤ 0x1000

/-- A run of `k` steps without a fault or refusal. -/
def SafeRun (k : Nat) (s : State) : Prop := ∃ t : State, Host.Core.run Sys2Proof.core k s = .next t

/-- Two answers agree but for the sound timer. -/
def AgreeButSound (a b : Result) : Prop :=
  match a, b with
  | .next t, .next u => t.setSt 0x00#8 = u.setSt 0x00#8
  | .fault e, .fault f => e = f
  | .refused q, .refused r => q = r
  | _, _ => False

end Sys2Proof.Machine
end

