-- ==== Sys2Proof/Certificates/Slice0/Obligations.lean ====
section
/-! DEFINITION. The statements for the provers. In the per-instruction ones `s` is the state in which execute is entered: its `PC` is
the post-fetch counter, the address of the instruction plus 2 (10_state.md R13). Each holds for every configuration. -/

open Sys2Proof Sys2Proof.Machine

/-! ## Encoding -/

/-- 30_encoding.md R61, R62, R66, R71: no operand bit is lost between the encoder and the decoder, which consumes exactly two bytes.
The low bytes of the F family are the spec's decision D11, the whole-word match of `CLS` and `RET` its decision D9 (assumption 9). -/
def Obligations.DecodeOfEncodeIsIdentity : Prop :=
  ∀ (i : Instr) (rest : List Byte), i.wf = true → decodeBytes (encodeBytes i ++ rest) = some (.recognised i, rest)

/-- 30_encoding.md R66, R71: a recognised word is the canonical word of its instruction, but that under top nibbles 5 and 9 the low
nibble is ignored and the canonical one is 0 (decision D10, assumption 9). -/
def Obligations.EncodeOfDecodedIsCanonicalWord : Prop :=
  ∀ (op : Word) (i : Instr), decodeWord op = .recognised i →
    i.wf = true ∧
    ((topNibble op ≠ 0x5#4 ∧ topNibble op ≠ 0x9#4) → encode i = op) ∧
    ((topNibble op = 0x5#4 ∨ topNibble op = 0x9#4) → encode i = op &&& 0xFFF0#16)

/-- 30_encoding.md R66: a word has the kind of a row exactly when `op & mask == match`; there are 34 rows; a word that matches no row
is `Unknown` and carries the raw word. That a word has one kind says that rows never overlap. -/
def Obligations.DecodedKindIsTheMatchingTableRow : Prop :=
  opcodeTable.length = 34 ∧
  ∀ op : Word,
    (∀ r ∈ opcodeTable, (op &&& r.mask = r.pattern ↔ (decodeWord op).kind = r.kind)) ∧
    ((∀ r ∈ opcodeTable, op &&& r.mask ≠ r.pattern) ↔ decodeWord op = .unknown op)

/-- 30_encoding.md R70: the `Unknown` words, family by family (decisions D9, D11; assumption 9). -/
def Obligations.UnknownWordsAreExactlyTheListed : Prop :=
  ∀ op : Word, decodeWord op = .unknown op ↔
    (op.toNat < 0x1000 ∧ op.toNat ≠ 0x00E0 ∧ op.toNat ≠ 0x00EE) ∨
    (op.toNat / 0x1000 = 0x8 ∧ op.toNat % 16 ∈ [0x8, 0x9, 0xA, 0xB, 0xC, 0xD, 0xF]) ∨
    (op.toNat / 0x1000 = 0xE ∧ op.toNat % 256 ∉ [0x9E, 0xA1]) ∨
    (op.toNat / 0x1000 = 0xF ∧ op.toNat % 256 ∉ [0x07, 0x0A, 0x15, 0x18, 0x1E, 0x29, 0x33, 0x55, 0x65])

/-- 30_encoding.md R66: seven words written out from the encoding column, one each of the formats Z, A, XK, XYS, XYN and two of XS, decode
to the instructions they stand for. The whole-word match of 0x00E0, and with it 0x01E0 as `Unknown`, is the spec's decision D9, the selector
of 0x8127 its decision D12, and the low byte of 0xF265 its decision D11 (assumption 9). Format XY is in
Obligations.DecodedKindIsTheMatchingTableRow. -/
def Obligations.SampleWordsDecodeAsTheTableSays : Prop :=
  decodeWord 0x00E0#16 = .recognised .cls ∧ decodeWord 0x1ABC#16 = .recognised (.jp 0xABC#12) ∧
  decodeWord 0x3A42#16 = .recognised (.seVxNn 10 0x42#8) ∧ decodeWord 0x8127#16 = .recognised (.subnVxVy 1 2) ∧
  decodeWord 0xD125#16 = .recognised (.drw 1 2 5) ∧ decodeWord 0xE39E#16 = .recognised (.skp 3) ∧
  decodeWord 0xF265#16 = .recognised (.ldVxMem 2) ∧ decodeWord 0x01E0#16 = .unknown 0x01E0#16

/-! ## The step -/

/-- 10_state.md R34, 30_encoding.md R63: where an instruction can be fetched and its word is recognised, a step is the execution of
that instruction in the state whose only change is `PC` advanced by 2 modulo 65536. -/
def Obligations.StepRunsTheDecodedInstruction : Prop :=
  ∀ (s : State) (i : Instr), s.fetches i →
    step s = exec i s.advance ∧ s.advance.pc.toNat = (s.pc.toNat + 2) % 65536 ∧ ChangesOnly [.pc] s s.advance

/-- 46_unknown.md R170: an `Unknown` word changes no state but the fetch advance; the outcome is `UNKNOWN(op)` by default and
`FAULT(UnknownInstruction, op)` under `STRICT_UNKNOWN`, and the state after the step is the same in both. -/
def Obligations.UnknownWordIsReportedAndOnlyAdvances : Prop :=
  ∀ (s : State), s.fetchable → decodeWord s.wordAtPc = .unknown s.wordAtPc →
    (s.cfg.strictUnknown = false → step s = .next s.advance ∧ outcomeOf s = .unknown s.wordAtPc) ∧
    (s.cfg.strictUnknown = true → step s = .fault (.unknownInstruction s.wordAtPc) ∧
      outcomeOf s = .fault (.unknownInstruction s.wordAtPc)) ∧
    afterStep s = s.advance ∧ s.advance.pc.toNat = (s.pc.toNat + 2) % 65536 ∧ ChangesOnly [.pc] s s.advance

/-- 30_encoding.md R63, 60_exceptions.md R181: above 0xFFE fetch faults with the lowest address out of range and nothing changes,
`PC` included (decision D27, assumption 13). -/
def Obligations.FetchAboveMemoryFaultsAndChangesNothing : Prop :=
  ∀ s : State, ¬ s.fetchable → step s = .fault (.outOfRangeAddress (max s.pc.toNat 0x1000)) ∧ afterStep s = s

/-- 60_exceptions.md R182, R183, R181, R188: each instruction raises exactly the errors of its own case (decision D23 for the order of
checks, assumption 13). -/
def Obligations.InstructionsFaultExactlyInTheirCase : Prop :=
  ∀ (i : Instr) (s : State) (e : Fault), exec i s = .fault e ↔ RaisesExactly i s e

/-- 60_exceptions.md R182, R183, R184: `StackUnderflow` is raised by `RET` on an empty stack, `StackOverflow` by `CALL` on a full one and
`UnknownInstruction` by an `Unknown` word under `STRICT_UNKNOWN`, and by nothing else. -/
def Obligations.StackAndUnknownErrorsComeFromTheirCauseAlone : Prop :=
  ∀ s : State,
    (step s = .fault .stackUnderflow ↔ (s.fetches .ret ∧ s.stack = [])) ∧
    (step s = .fault .stackOverflow ↔ ((∃ nnn : Addr, s.fetches (.call nnn)) ∧ s.stack.length = s.cfg.stackLimit)) ∧
    (∀ op : Word, step s = .fault (.unknownInstruction op) ↔
      (s.fetchable ∧ s.wordAtPc = op ∧ decodeWord op = .unknown op ∧ s.cfg.strictUnknown = true))

/-- 60_exceptions.md R185: after a fault raised by fetch no state has changed; after a fault raised by execute `PC` is the post-fetch
counter and everything else is as before the step. That a fault in fetch leaves `PC` is decision D27, and that all of an instruction's addresses
are checked before it writes is decision D23 (assumption 13). -/
def Obligations.FaultLeavesOnlyTheFetchAdvance : Prop :=
  ∀ (s : State) (e : Fault), step s = .fault e →
    (¬ s.fetchable → afterStep s = s) ∧
    (s.fetchable → (afterStep s).pc.toNat = (s.pc.toNat + 2) % 65536 ∧ ChangesOnly [.pc] s (afterStep s))

/-- 10_state.md R33: a step has exactly one outcome: it answers a next state exactly when the outcome is no fault, and then that is the
state after the step; it answers a fault exactly when the outcome is that fault; it never refuses. -/
def Obligations.StepAnswersAsItsOutcomeSays : Prop :=
  ∀ s : State,
    (∀ e : Fault, step s = .fault e ↔ outcomeOf s = .fault e) ∧
    ((∃ t : State, step s = .next t) ↔ ∀ e : Fault, outcomeOf s ≠ .fault e) ∧
    (∀ t : State, step s = .next t → afterStep s = t) ∧
    (∀ r : Refusal, step s ≠ .refused r)

/-! ## Control flow -/

/-- 40_control_flow.md R101. -/
def Obligations.JumpSetsPcToTheAddress : Prop :=
  ∀ (nnn : Addr) (s : State), ∃ t : State, exec (.jp nnn) s = .next t ∧
    t.pc.toNat = nnn.toNat ∧ ChangesOnly [.pc] s t

/-- 40_control_flow.md R103: the sum is kept in 16 bits and not reduced to 12 (decision D17, assumption 11). -/
def Obligations.JumpPlusV0SetsPcToTheSum : Prop :=
  ∀ (nnn : Addr) (s : State), ∃ t : State, exec (.jpV0Nnn nnn) s = .next t ∧
    t.pc.toNat = nnn.toNat + (s.reg 0).toNat ∧ ChangesOnly [.pc] s t

/-- 40_control_flow.md R102: below the limit the post-fetch counter is pushed and `PC` is the address; at the limit the call raises
`StackOverflow`, and the step neither pushes nor jumps. -/
def Obligations.CallPushesPostFetchCounterAndJumps : Prop :=
  ∀ (nnn : Addr) (s : State),
    (s.stack.length ≠ s.cfg.stackLimit → ∃ t : State, exec (.call nnn) s = .next t ∧
      t.stack = s.stack ++ [s.pc] ∧ t.pc.toNat = nnn.toNat ∧ ChangesOnly [.pc, .stack] s t) ∧
    (s.stack.length = s.cfg.stackLimit → exec (.call nnn) s = .fault .stackOverflow ∧
      (s.fetches (.call nnn) → afterStep s = s.advance))

/-- 40_control_flow.md R100: `RET` pops the newest entry into `PC`; on an empty stack it raises `StackUnderflow`, and the step changes
nothing but the fetch advance. -/
def Obligations.ReturnPopsTheNewestEntryIntoPc : Prop :=
  ∀ s : State,
    (∀ (older : List Word) (a : Word), s.stack = older ++ [a] → ∃ t : State, exec .ret s = .next t ∧
      t.pc = a ∧ t.stack = older ∧ ChangesOnly [.pc, .stack] s t) ∧
    (s.stack = [] → exec .ret s = .fault .stackUnderflow ∧ (s.fetches .ret → afterStep s = s.advance))

/-- 95_test_vectors.md E4 (from the rules R102, R100): a `CALL` at P whose target holds a `RET` comes back to P + 2 in two steps with
everything but `PC` as before. -/
def Obligations.CallThenReturnComesBackAfterTheCall : Prop :=
  ∀ (s : State) (nnn : Addr), s.fetches (.call nnn) → s.stack.length ≠ s.cfg.stackLimit → nnn.toNat ≤ 0xFFE →
    decodeWord (wordOfBytes (s.byteAt nnn.toNat) (s.byteAt (nnn.toNat + 1))) = .recognised .ret →
    ∃ t : State, Host.Core.run Sys2Proof.core 2 s = .next t ∧
      t.pc.toNat = s.pc.toNat + 2 ∧ ChangesOnly [.pc] s t

/-! ## Skips -/

/-- 41_skip.md R110, R111: the immediate skips. -/
def Obligations.ImmediateSkipsCompareRegisterWithByte : Prop :=
  ∀ (x : Reg) (nn : Byte) (s : State),
    (∃ t : State, exec (.seVxNn x nn) s = .next t ∧ ChangesOnly [.pc] s t ∧
      t.pc.toNat = if (s.reg x).toNat = nn.toNat then (s.pc.toNat + 2) % 65536 else s.pc.toNat) ∧
    (∃ t : State, exec (.sneVxNn x nn) s = .next t ∧ ChangesOnly [.pc] s t ∧
      t.pc.toNat = if (s.reg x).toNat = nn.toNat then s.pc.toNat else (s.pc.toNat + 2) % 65536)

/-- 41_skip.md R112, R113: the register skips. -/
def Obligations.RegisterSkipsCompareTwoRegisters : Prop :=
  ∀ (x y : Reg) (s : State),
    (∃ t : State, exec (.seVxVy x y) s = .next t ∧ ChangesOnly [.pc] s t ∧
      t.pc.toNat = if (s.reg x).toNat = (s.reg y).toNat then (s.pc.toNat + 2) % 65536 else s.pc.toNat) ∧
    (∃ t : State, exec (.sneVxVy x y) s = .next t ∧ ChangesOnly [.pc] s t ∧
      t.pc.toNat = if (s.reg x).toNat = (s.reg y).toNat then s.pc.toNat else (s.pc.toNat + 2) % 65536)

/-- 44_key_timer.md R150, R151: pressed means that a key is latched and its code equals the whole byte; the two skips are exact
complements (decision D19, assumption 12). -/
def Obligations.KeySkipsAreComplementsOnTheWholeByte : Prop :=
  ∀ (x : Reg) (s : State),
    (∃ t : State, exec (.skp x) s = .next t ∧ ChangesOnly [.pc] s t ∧
      ((∃ k : KeyCode, s.key = some k ∧ k.val = (s.reg x).toNat) → t.pc.toNat = (s.pc.toNat + 2) % 65536) ∧
      ((¬ ∃ k : KeyCode, s.key = some k ∧ k.val = (s.reg x).toNat) → t.pc = s.pc)) ∧
    (∃ t : State, exec (.sknp x) s = .next t ∧ ChangesOnly [.pc] s t ∧
      ((∃ k : KeyCode, s.key = some k ∧ k.val = (s.reg x).toNat) → t.pc = s.pc) ∧
      ((¬ ∃ k : KeyCode, s.key = some k ∧ k.val = (s.reg x).toNat) → t.pc.toNat = (s.pc.toNat + 2) % 65536))

/-! ## Loads, arithmetic and logic -/

/-- 42_load_alu.md R120. -/
def Obligations.LoadImmediateWritesTheByte : Prop :=
  ∀ (x : Reg) (nn : Byte) (s : State), ∃ t : State, exec (.ldVxNn x nn) s = .next t ∧
    t.reg x = nn ∧ KeepsRegsBut x s t ∧ ChangesOnly [.regs] s t

/-- 42_load_alu.md R122: `VF` is kept unless it is the destination (decision D15, assumption 10). -/
def Obligations.AssignCopiesTheSourceRegister : Prop :=
  ∀ (x y : Reg) (s : State), ∃ t : State, exec (.ldVxVy x y) s = .next t ∧
    t.reg x = s.reg y ∧ KeepsRegsBut x s t ∧ ChangesOnly [.regs] s t

/-- 42_load_alu.md R121: the sum modulo 256, and no flag: `VF` is unchanged unless it is the destination. -/
def Obligations.AddImmediateWrapsAndSetsNoFlag : Prop :=
  ∀ (x : Reg) (nn : Byte) (s : State), ∃ t : State, exec (.addVxNn x nn) s = .next t ∧
    (t.reg x).toNat = ((s.reg x).toNat + nn.toNat) % 256 ∧ KeepsRegsBut x s t ∧ ChangesOnly [.regs] s t

/-- 42_load_alu.md R123 to R125: each result bit is the or, and, exclusive or of the operand bits, and `VF` is not written unless it is
the destination (decision D15, assumption 10). -/
def Obligations.LogicFormsWorkBitByBit : Prop :=
  ∀ (x y : Reg) (s : State),
    (∃ t : State, exec (.orVxVy x y) s = .next t ∧ KeepsRegsBut x s t ∧ ChangesOnly [.regs] s t ∧
      ∀ k : Nat, (t.reg x).getLsbD k = ((s.reg x).getLsbD k || (s.reg y).getLsbD k)) ∧
    (∃ t : State, exec (.andVxVy x y) s = .next t ∧ KeepsRegsBut x s t ∧ ChangesOnly [.regs] s t ∧
      ∀ k : Nat, (t.reg x).getLsbD k = ((s.reg x).getLsbD k && (s.reg y).getLsbD k)) ∧
    (∃ t : State, exec (.xorVxVy x y) s = .next t ∧ KeepsRegsBut x s t ∧ ChangesOnly [.regs] s t ∧
      ∀ k : Nat, (t.reg x).getLsbD k = ((s.reg x).getLsbD k ^^ (s.reg y).getLsbD k))

/-- 42_load_alu.md R126: the sum modulo 256, then the carry; with `x == 15` only the carry is left. -/
def Obligations.AddRegistersSetsSumThenCarry : Prop :=
  ∀ (x y : Reg) (s : State), ∃ t : State, exec (.addVxVy x y) s = .next t ∧
    (t.reg regF).toNat = (if 255 < (s.reg x).toNat + (s.reg y).toNat then 1 else 0) ∧
    (x ≠ regF → (t.reg x).toNat = ((s.reg x).toNat + (s.reg y).toNat) % 256) ∧
    KeepsRegsButFlag x s t ∧ ChangesOnly [.regs] s t

/-- 42_load_alu.md R127, R129: the differences modulo 256, then the complement of the borrow (decision D13, assumption 10); the result
is given as the byte that the subtrahend brings back to the minuend. -/
def Obligations.SubtractionsSetDifferenceThenNotBorrow : Prop :=
  ∀ (x y : Reg) (s : State),
    (∃ t : State, exec (.subVxVy x y) s = .next t ∧
      (t.reg regF).toNat = (if (s.reg y).toNat ≤ (s.reg x).toNat then 1 else 0) ∧
      (x ≠ regF → ((t.reg x).toNat + (s.reg y).toNat) % 256 = (s.reg x).toNat) ∧
      KeepsRegsButFlag x s t ∧ ChangesOnly [.regs] s t) ∧
    (∃ t : State, exec (.subnVxVy x y) s = .next t ∧
      (t.reg regF).toNat = (if (s.reg x).toNat ≤ (s.reg y).toNat then 1 else 0) ∧
      (x ≠ regF → ((t.reg x).toNat + (s.reg x).toNat) % 256 = (s.reg y).toNat) ∧
      KeepsRegsButFlag x s t ∧ ChangesOnly [.regs] s t)

/-- 42_load_alu.md R128, R130: `V[y]` shifted by one, then the bit shifted out (decision D14, assumption 10). -/
def Obligations.ShiftsMoveVyByOneThenSetTheLostBit : Prop :=
  ∀ (x y : Reg) (s : State),
    (∃ t : State, exec (.shrVxVy x y) s = .next t ∧
      (t.reg regF).toNat = (s.reg y).toNat % 2 ∧
      (x ≠ regF → (t.reg x).toNat = (s.reg y).toNat / 2) ∧
      KeepsRegsButFlag x s t ∧ ChangesOnly [.regs] s t) ∧
    (∃ t : State, exec (.shlVxVy x y) s = .next t ∧
      (t.reg regF).toNat = (s.reg y).toNat / 128 ∧
      (x ≠ regF → (t.reg x).toNat = 2 * (s.reg y).toNat % 256) ∧
      KeepsRegsButFlag x s t ∧ ChangesOnly [.regs] s t)

/-- 42_load_alu.md R131: `RND` runs on every state, masks whatever byte is drawn, sets no bit outside the mask, and counts the draw, which
is the model's own (decision D18, assumption 3). -/
def Obligations.RandomByteIsMaskedWhateverItIs : Prop :=
  ∀ (x : Reg) (nn : Byte) (s : State),
    (∃ t : State, exec (.rndVxNn x nn) s = .next t ∧ t.reg x = Config.randomByte s.draws &&& nn ∧
      t.draws = s.draws + 1 ∧ KeepsRegsBut x s t ∧ ChangesOnly [.regs, .draws] s t) ∧
    (∀ (rnd : Byte) (k : Nat), nn.getLsbD k = false → ((loadRandomMasked rnd x nn s).reg x).getLsbD k = false)

/-! ## Display -/

/-- 43_display.md R140. -/
def Obligations.ClearUnsetsEveryCell : Prop :=
  ∀ s : State, ∃ t : State, exec .cls s = .next t ∧
    (∀ cx cy : Nat, Display.cell t.fb cx cy = false) ∧ ChangesOnly [.display] s t

/-- 43_display.md R141: with all its sprite bytes in memory a draw turns over exactly the cells under the sprite's 1 bits, with
wrap-around, then sets `VF` to 1 if some cell went from set to unset and to 0 otherwise; everything else is unchanged, and with `n == 0` no
byte is read (decisions D24, D25, assumption 11). -/
def Obligations.DrawTurnsOverTheCellsUnderTheSprite : Prop :=
  ∀ (x y : Reg) (n : Nat) (s : State), n ≤ 15 → ¬ s.spanFaults n →
    ∃ t : State, exec (.drw x y n) s = .next t ∧
      (∀ cx cy : Nat, cx < 64 → cy < 32 →
        (SpriteLandsOn x y n s cx cy → Display.cell t.fb cx cy = !Display.cell s.fb cx cy) ∧
        (¬ SpriteLandsOn x y n s cx cy → Display.cell t.fb cx cy = Display.cell s.fb cx cy)) ∧
      ((∃ cx cy : Nat, cx < 64 ∧ cy < 32 ∧ Display.cell s.fb cx cy = true ∧ Display.cell t.fb cx cy = false) →
        t.reg regF = 0x01#8) ∧
      ((¬ ∃ cx cy : Nat, cx < 64 ∧ cy < 32 ∧ Display.cell s.fb cx cy = true ∧ Display.cell t.fb cx cy = false) →
        t.reg regF = 0x00#8) ∧
      KeepsRegsBut regF s t ∧ ChangesOnly [.regs, .display] s t

/-- 43_display.md R142 (derived there from R141): a second draw of the same sprite at the same place restores every cell, and collides exactly
when some 1 bit of the sprite lay over a cell that was unset before the first draw. Which cell a bit lies over is `SpriteLandsOn`, whose bit
order is the spec's decision D24 (assumption 11). -/
def Obligations.DrawingTwiceRestoresTheDisplay : Prop :=
  ∀ (x y : Reg) (n : Nat) (s t u : State), n ≤ 15 → exec (.drw x y n) s = .next t →
    u.fb = t.fb → u.reg x = s.reg x → u.reg y = s.reg y → u.i = s.i →
    (∀ r : Nat, r < n → u.byteAt (u.effectiveAddress r) = s.byteAt (s.effectiveAddress r)) →
    ∃ w : State, exec (.drw x y n) u = .next w ∧ w.fb = s.fb ∧
      (w.reg regF = 0x01#8 ↔ ∃ cx cy : Nat, cx < 64 ∧ cy < 32 ∧ SpriteLandsOn x y n s cx cy ∧ Display.cell s.fb cx cy = false) ∧
      (w.reg regF = 0x00#8 ∨ w.reg regF = 0x01#8)

/-! ## Keys and timers -/

/-- 44_key_timer.md R152, R154, R155: the timer accesses. -/
def Obligations.TimerAccessesCopyTheWholeByte : Prop :=
  ∀ (x : Reg) (s : State),
    (∃ t : State, exec (.ldVxDt x) s = .next t ∧ t.reg x = s.dt ∧ KeepsRegsBut x s t ∧ ChangesOnly [.regs] s t) ∧
    (∃ t : State, exec (.ldDtVx x) s = .next t ∧ t.dt = s.reg x ∧ ChangesOnly [.delay] s t) ∧
    (∃ t : State, exec (.ldStVx x) s = .next t ∧ t.st = s.reg x ∧ ChangesOnly [.sound] s t)

/-- 44_key_timer.md R153: with a key latched its code goes to `V[x]`, `PC` stays at the post-fetch counter and the latch stays; with none
the fetch advance is undone and nothing else changes (decision D20, assumption 12). -/
def Obligations.WaitForKeyLoadsTheLatchedKey : Prop :=
  ∀ (x : Reg) (s : State),
    (∀ k : KeyCode, s.key = some k → ∃ t : State, exec (.ldVxK x) s = .next t ∧
      (t.reg x).toNat = k.val ∧ KeepsRegsBut x s t ∧ ChangesOnly [.regs] s t) ∧
    (s.key = none → ∃ t : State, exec (.ldVxK x) s = .next t ∧
      t.pc.toNat = (s.pc.toNat + 65534) % 65536 ∧ ChangesOnly [.pc] s t)

/-- 95_test_vectors.md E6, 60_exceptions.md R195 (from R153, R196): with no key latched, any number of steps at `LD Vx, K` leave the whole
state as it is, each with outcome `WAITING`; the step after a key is latched completes (decision D20, assumption 12). -/
def Obligations.WaitingLastsUntilAKeyIsLatched : Prop :=
  ∀ (s : State) (x : Reg), s.fetches (.ldVxK x) → s.key = none →
    outcomeOf s = .waiting ∧ (∀ k : Nat, Host.Core.run Sys2Proof.core k s = .next s) ∧
    ∀ c : KeyCode, ∃ t : State, step (s.setKey (some c)) = .next t ∧ outcomeOf (s.setKey (some c)) = .ok ∧
      t.pc.toNat = s.pc.toNat + 2 ∧ (t.reg x).toNat = c.val ∧ t.key = some c

/-- 60_exceptions.md R195: the only wait in the machine is `LD Vx, K` with no key latched. -/
def Obligations.OnlyWaitForKeyWaits : Prop :=
  ∀ s : State, outcomeOf s = .waiting ↔ ((∃ x : Reg, s.fetches (.ldVxK x)) ∧ s.key = none)

/-! ## Index register and memory -/

/-- 45_index_memory.md R160, R162: `LD I` and `LD F`. -/
def Obligations.IndexLoadsSetTheAddress : Prop :=
  ∀ (x : Reg) (nnn : Addr) (s : State),
    (∃ t : State, exec (.ldINnn nnn) s = .next t ∧ t.i.toNat = nnn.toNat ∧ ChangesOnly [.index] s t) ∧
    (∃ t : State, exec (.ldFVx x) s = .next t ∧
      t.i.toNat = s.cfg.fontBase.val + 5 * ((s.reg x).toNat % 16) ∧ ChangesOnly [.index] s t)

/-- 45_index_memory.md R161: the sum modulo 65536, no flag, no range check (decision D16, assumption 11). -/
def Obligations.AddToIndexWrapsAtSixteenBits : Prop :=
  ∀ (x : Reg) (s : State), ∃ t : State, exec (.addIVx x) s = .next t ∧
    t.i.toNat = (s.i.toNat + (s.reg x).toNat) % 65536 ∧ ChangesOnly [.index] s t

/-- 45_index_memory.md R163: the three decimal digits at `I`, `I + 1`, `I + 2`, hundreds first (decision D21, assumption 11), every other byte
as before. -/
def Obligations.StoreBcdWritesThreeDigits : Prop :=
  ∀ (x : Reg) (s : State), ¬ s.spanFaults 3 → ∃ t : State, exec (.ldBVx x) s = .next t ∧
    (t.byteAt (s.effectiveAddress 0)).toNat = (s.reg x).toNat / 100 ∧
    (t.byteAt (s.effectiveAddress 1)).toNat = (s.reg x).toNat / 10 % 10 ∧
    (t.byteAt (s.effectiveAddress 2)).toNat = (s.reg x).toNat % 10 ∧
    KeepsBytesOutside (s.effectiveAddress 0) 3 s t ∧ ChangesOnly [.memory] s t

/-- 45_index_memory.md R164: `V[k]` at `I + k` for `k` from 0 to `x`, every other byte as before, `I` unchanged. -/
def Obligations.SaveRegistersWritesTheBlock : Prop :=
  ∀ (x : Reg) (s : State), ¬ s.spanFaults (x.val + 1) → ∃ t : State, exec (.ldMemVx x) s = .next t ∧
    (∀ k : Reg, k ≤ x → t.byteAt (s.effectiveAddress k.val) = s.reg k) ∧
    KeepsBytesOutside (s.effectiveAddress 0) (x.val + 1) s t ∧ ChangesOnly [.memory] s t

/-- 45_index_memory.md R165: `V[k]` from `I + k` for `k` from 0 to `x`, every other register as before, `I` and memory unchanged. -/
def Obligations.LoadRegistersReadsTheBlock : Prop :=
  ∀ (x : Reg) (s : State), ¬ s.spanFaults (x.val + 1) → ∃ t : State, exec (.ldVxMem x) s = .next t ∧
    (∀ k : Reg, k ≤ x → t.reg k = s.byteAt (s.effectiveAddress k.val)) ∧
    (∀ k : Reg, x < k → t.reg k = s.reg k) ∧ ChangesOnly [.regs] s t

/-- 95_test_vectors.md E7, quoted in R165: saving `V[0..x]` and loading them back from the same address gives the original values,
whatever happened to the registers in between. -/
def Obligations.SaveThenLoadGivesTheRegistersBack : Prop :=
  ∀ (x : Reg) (s t u : State), exec (.ldMemVx x) s = .next t → u.mem = t.mem → u.i = s.i →
    ∃ w : State, exec (.ldVxMem x) u = .next w ∧ (∀ k : Reg, k ≤ x → w.reg k = s.reg k) ∧
      (∀ k : Reg, x < k → w.reg k = u.reg k)

/-- 20_memory.md R56 (decision D35, assumption 13): a register block stored over the next instruction is what the next step fetches. -/
def Obligations.StoreIsSeenByTheNextFetch : Prop :=
  ∀ (x k : Reg) (s t : State), exec (.ldMemVx x) s = .next t → k < x → s.pc.toNat = s.effectiveAddress k.val →
    t.fetch = .ok (wordOfBytes (s.reg k) (s.reg (k + 1)))

/-- 20_memory.md R41, R42: a read in range gives the byte and one out of range its error; a write in range changes its byte and no other,
and one out of range gives its error. -/
def Obligations.MemoryAccessesObeyReadAndWrite : Prop :=
  ∀ (s : State) (a : Nat) (b : Byte),
    (a ≤ 0xFFF → s.memRead a = .ok (s.byteAt a) ∧
      ∃ t : State, s.memWrite a b = .ok t ∧ t.byteAt a = b ∧ KeepsBytesOutside a 1 s t ∧ ChangesOnly [.memory] s t) ∧
    (0xFFF < a → s.memRead a = .error (.outOfRangeAddress a) ∧ s.memWrite a b = .error (.outOfRangeAddress a))

/-! ## Rules of the whole machine -/

/-- Every instruction changes only the parts of the state that the rules give it (10_state.md R12, R14 to R17, R20, R23, R25, R27; 20_memory.md
R47). The part `draws` is the model's own (assumption 3). -/
def Obligations.InstructionsChangeOnlyTheirParts : Prop :=
  ∀ (i : Instr) (s t : State), exec i s = .next t → ChangesOnly (Instr.parts i) s t

/-- 10_state.md R12: the six flag writers leave 0 or 1 in `VF`; every register that an instruction does not name as its destination is
unchanged, `VF` too unless the instruction is one of the six. -/
def Obligations.FlagIsWrittenOnlyByTheSixWriters : Prop :=
  ∀ (i : Instr) (s t : State), exec i s = .next t →
    (Instr.writesFlag i = true → t.reg regF = 0x00#8 ∨ t.reg regF = 0x01#8) ∧
    (∀ r : Reg, Instr.destination r i = false → (Instr.writesFlag i = true → r ≠ regF) → t.reg r = s.reg r)

/-- 10_state.md R14: after fetch, `JP`, `CALL`, `RET` and `JP V0` replace `PC`, a skip may add a further 2, `LD Vx, K` with no key takes the 2
back, and every other instruction leaves `PC` alone. -/
def Obligations.PcChangesOnlyByTransfersSkipsAndWait : Prop :=
  ∀ (i : Instr) (s t : State), exec i s = .next t → t.pc ≠ s.pc →
    (∃ nnn : Addr, i = .jp nnn ∨ i = .call nnn ∨ i = .jpV0Nnn nnn) ∨ i = .ret ∨
    (t.pc = s.pc + 2#16 ∧ ∃ (x y : Reg) (nn : Byte), i = .seVxNn x nn ∨ i = .sneVxNn x nn ∨ i = .seVxVy x y ∨
      i = .sneVxVy x y ∨ i = .skp x ∨ i = .sknp x) ∨
    (t.pc = s.pc - 2#16 ∧ s.key = none ∧ ∃ x : Reg, i = .ldVxK x)

/-- 10_state.md R20: only `CALL` pushes, and it pushes the post-fetch counter; only `RET` pops, and the popped entry is where `PC` goes. -/
def Obligations.OnlyCallPushesAndOnlyRetPops : Prop :=
  ∀ (i : Instr) (s t : State), exec i s = .next t → t.stack ≠ s.stack →
    ((∃ nnn : Addr, i = .call nnn) ∧ t.stack = s.stack ++ [s.pc]) ∨ (i = .ret ∧ s.stack = t.stack ++ [t.pc])

/-- 10_state.md R23: among the steps only those of `CLS` and `DRW` change the display. -/
def Obligations.OnlyClearAndDrawChangeTheDisplay : Prop :=
  ∀ s t : State, step s = .next t → t.fb ≠ s.fb →
    s.fetches .cls ∨ ∃ (x y : Reg) (n : Nat), s.fetches (.drw x y n)

/-- 10_state.md R16, R17: a step changes `DT` only by `LD DT, Vx` and `ST` only by `LD ST, Vx`. -/
def Obligations.TimersChangeOnlyByTheirSetters : Prop :=
  ∀ s t : State, step s = .next t →
    (t.dt ≠ s.dt → ∃ x : Reg, s.fetches (.ldDtVx x) ∧ t.dt = s.reg x) ∧
    (t.st ≠ s.st → ∃ x : Reg, s.fetches (.ldStVx x) ∧ t.st = s.reg x)

/-- 10_state.md R25, R27: no step writes the key latch or the configuration. -/
def Obligations.NoStepWritesKeyOrConfiguration : Prop :=
  ∀ s t : State, step s = .next t → t.key = s.key ∧ t.cfg = s.cfg

/-- 10_state.md R17: no instruction reads `ST`, so two states that differ only in `ST` step alike, in answer, outcome and trace. Both steps
take the same random byte `rnd`, since the model's free byte is a function of `draws`, which the two states share (decision D18, assumption 3);
that `ST` has no effect inside the core is decision D34. -/
def Obligations.SoundTimerNeverInfluencesAStep : Prop :=
  ∀ (s : State) (v : Byte), AgreeButSound (step s) (step (s.setSt v)) ∧
    outcomeOf (s.setSt v) = outcomeOf s ∧ traceOf (s.setSt v) = traceOf s

/-! ## Invariants -/

/-- The reset state of the host's interface meets the invariant. -/
def Obligations.ResetStateMeetsTheInvariant : Prop := State.reset.Inv

/-- Every step keeps the invariant: the stack within `STACK_LIMIT` (R20), canonical memory, `PC` at most 0x10FE (R14), stack entries at
most 0x1000 (R100), and a configuration R4 admits. -/
def Obligations.StepKeepsTheInvariant : Prop :=
  ∀ s t : State, s.Inv → step s = .next t → t.Inv

/-- Whatever events the host fires from power-on, in any order and number, every state reached meets the invariant: a fault's aftermath, a
tick, a key or a second reset included (R32, R189, R194, R212). That the events go on after a fault is R189, where the model otherwise follows
the advice D28 to end a run (assumption 6); illegal resets are refused (decision D8, assumption 7). -/
def Obligations.EveryStateReachedByEventsMeetsTheInvariant : Prop :=
  ∀ (events : List Event) (t : State) (out : List Output), runEvents none events = .ok (some t, out) → t.Inv

/-! ## Host events -/

/-- 70_reset_and_hazards.md R210: font at `FONT_BASE`, program at 0x200, every other byte 0x00, `PC` 0x0200, empty stack, and zeros and
`NONE` elsewhere, for every legal configuration and image (the zeros are decision D7, assumption 14). -/
def Obligations.ResetLoadsFontAndProgram : Prop :=
  ∀ (d : Nat) (c : Config) (rom font : List Byte), 1 ≤ c.stackLimit → rom.length ≤ 3584 → font.length = 80 →
    ∃ t : State, State.resetWith d c rom font = .ok t ∧ t.cfg = c ∧
      t.pc.toNat = 0x200 ∧ t.stack = [] ∧ (∀ r : Reg, t.reg r = 0x00#8) ∧ t.i = 0x0000#16 ∧ t.dt = 0x00#8 ∧ t.st = 0x00#8 ∧
      (∀ cx cy : Nat, Display.cell t.fb cx cy = false) ∧ t.key = none ∧
      (∀ k : Nat, k < 80 → t.byteAt (c.fontBase.val + k) = font.getD k 0x00#8) ∧
      (∀ k : Nat, k < rom.length → t.byteAt (0x200 + k) = rom.getD k 0x00#8) ∧
      (∀ a : Nat, (a < c.fontBase.val ∨ c.fontBase.val + 80 ≤ a) → (a < 0x200 ∨ 0x200 + rom.length ≤ a) →
        t.byteAt a = 0x00#8)

/-- 70_reset_and_hazards.md R211, R212 (decision D8, assumption 7): a reset with a longer program, another font length or `STACK_LIMIT` 0 is
refused, and before the first reset no other event is accepted. -/
def Obligations.IllegalResetsAndEarlyEventsAreRefused : Prop :=
  (∀ (m : Option State) (c : Config) (rom font : List Byte),
    c.stackLimit = 0 ∨ 3584 < rom.length ∨ font.length ≠ 80 → ∃ r : Refusal, applyEvent m (.reset c rom font) = .error r) ∧
  (∀ e : Event, (∀ (c : Config) (rom font : List Byte), e ≠ .reset c rom font) → applyEvent none e = .error .notYetReset)

/-- 60_exceptions.md R193 (two tick events: decision D32, assumption 8): each tick lowers its timer by one, floored at zero, changes nothing
else, and the two commute. -/
def Obligations.TicksLowerTheirTimerToZero : Prop :=
  ∀ s : State,
    (s.tickDelay.dt.toNat = s.dt.toNat - 1 ∧ ChangesOnly [.delay] s s.tickDelay) ∧
    (s.tickSound.st.toNat = s.st.toNat - 1 ∧ ChangesOnly [.sound] s s.tickSound) ∧
    s.tickDelay.tickSound = s.tickSound.tickDelay

/-- 60_exceptions.md R196: `SETKEY` replaces the latch and changes nothing else; bytes outside the seventeen legal ones are refused (byte
encoding and refusal: decision D36, assumption 7). -/
def Obligations.SetKeyReplacesTheLatch : Prop :=
  ∀ (s : State) (b : Byte),
    (∀ k : KeyCode, b.toNat = k.val → ∃ t : State, applyEvent (some s) (.setKey b) = .ok (t, .none) ∧
      t.key = some k ∧ ChangesOnly [.key] s t) ∧
    (b.toNat = 0xFF → ∃ t : State, applyEvent (some s) (.setKey b) = .ok (t, .none) ∧
      t.key = none ∧ ChangesOnly [.key] s t) ∧
    (15 < b.toNat → b.toNat ≠ 0xFF → applyEvent (some s) (.setKey b) = .error (.illegalKeyByte b))

/-- 60_exceptions.md R198: reading the display gives its 2048 cells and changes nothing; the place `y * 64 + x` of a cell in the vector is
decision D24 (10_state.md section 4, assumption 11). -/
def Obligations.ReadDisplayGivesEveryCell : Prop :=
  ∀ s : State, ∃ cells : List Bool, applyEvent (some s) .readDisplay = .ok (s, .display cells) ∧ cells.length = 2048 ∧
    ∀ x y : Nat, x < 64 → y < 32 → cells[y * 64 + x]? = some (Display.cell s.fb x y)

/-- 60_exceptions.md R201 (decision D38, assumption 13): the trace record carries `PC` before the step, the fetched word and the decoded kind;
the last two are absent after a fault in fetch. -/
def Obligations.TraceCarriesPcWordAndKind : Prop :=
  ∀ s : State, (traceOf s).pc = s.pc ∧
    (s.fetchable → (traceOf s).op = some s.wordAtPc ∧ (traceOf s).kind = some (decodeWord s.wordAtPc).kind) ∧
    (¬ s.fetchable → (traceOf s).op = none ∧ (traceOf s).kind = none)
end

