-- ==== Sys2Proof/Laws/Drawing.lean ====
section
/-! SUPPORT. What the sprite-draw controller does to a cell and to the collision (10_state.md R24, 43_display.md R141). -/

namespace Sys2Proof.Machine

/-- Flipping a cell turns that cell over and no other (R24). -/
theorem Display.cell_flip (fb : Display) (px py cx cy : Nat) :
    Display.cell (Display.flip fb px py) cx cy =
      (Display.cell fb cx cy ^^ (decide (px % 64 = cx % 64) && decide (py % 32 = cy % 32))) := by
  have hx : cx % 64 < 64 := Nat.mod_lt _ (by decide)
  unfold Display.cell Display.flip
  simp only [Vector.getElem_set]
  by_cases hy : py % 32 = cy % 32
  · simp [hy, hx, eq_comm]
  · simp [hy]

@[simp] theorem Display.cell_clear (cx cy : Nat) : Display.cell Display.clear cx cy = false := by
  unfold Display.cell Display.clear
  simp

/-- Two displays whose cells agree are the same. -/
theorem Display.ext_of_cell {a b : Display}
    (h : ∀ cx cy, cx < 64 → cy < 32 → Display.cell a cx cy = Display.cell b cx cy) : a = b := by
  apply Vector.ext
  intro y hy
  apply BitVec.eq_of_getLsbD_eq
  intro x hx
  have := h x y hx hy
  unfold Display.cell at this
  simpa [Nat.mod_eq_of_lt hx, Nat.mod_eq_of_lt hy] using this

/-- The bit of a sprite at an offset: row `r`, column offset `c` is bit `7 - c` of row byte `r`; beyond the sprite there is
none (R141). -/
def spriteBit (rows : List Byte) (r c : Nat) : Bool := decide (c < 8) && (rows.getD r 0x00#8).getLsbD (7 - c)

/-- The sprite with its top-left pixel at `(px, py)` has a 1 bit over the cell `(cx, cy)`: the cell's column offset and row offset,
counted with wrap-around, name that bit (R24, R141). -/
def spriteCovers (rows : List Byte) (px py cx cy : Nat) : Bool :=
  spriteBit rows ((cy + 32 - py % 32) % 32) ((cx + 64 - px % 64) % 64)

theorem drawRow_fold (px cy : Nat) (row : Byte) : ∀ (k : Nat), k ≤ 8 → ∀ (d : Drawing),
    let e := (List.range k).foldl (fun d c => drawPixel d (px + c) cy (row.getLsbD (7 - c))) d
    (∀ x y, x < 64 → y < 32 → Display.cell e.1 x y =
      (Display.cell d.1 x y ^^ (decide (y = cy % 32) && decide ((x + 64 - px % 64) % 64 < k) &&
        row.getLsbD (7 - (x + 64 - px % 64) % 64)))) ∧
    (e.2 = true ↔ d.2 = true ∨ ∃ c, c < k ∧ row.getLsbD (7 - c) = true ∧ Display.cell d.1 (px + c) cy = true) := by
  intro k
  induction k with
  | zero => intro _ d; simp
  | succ k ih =>
    intro hk d
    obtain ⟨ih1, ih2⟩ := ih (by omega) d
    simp only [List.range_succ, List.foldl_append, List.foldl_cons, List.foldl_nil]
    generalize (List.range k).foldl (fun d c => drawPixel d (px + c) cy (row.getLsbD (7 - c))) d = e at ih1 ih2
    have old : Display.cell e.1 (px + k) cy = Display.cell d.1 (px + k) cy := by
      have h := ih1 ((px + k) % 64) (cy % 32) (Nat.mod_lt _ (by decide)) (Nat.mod_lt _ (by decide))
      have hoff : ((px + k) % 64 + 64 - px % 64) % 64 = k := by omega
      have hm : ∀ fb : Display, Display.cell fb ((px + k) % 64) (cy % 32) = Display.cell fb (px + k) cy := by
        intro fb; unfold Display.cell; simp
      rw [hm, hm, hoff] at h
      simpa using h
    unfold drawPixel
    by_cases hb : row.getLsbD (7 - k) = true
    · simp only [hb, if_true]
      constructor
      · intro x y hx hy
        rw [Display.cell_flip, ih1 x y hx hy]
        have hx' : x % 64 = x := Nat.mod_eq_of_lt hx
        have hy' : y % 32 = y := Nat.mod_eq_of_lt hy
        by_cases hrow : y = cy % 32
        · by_cases hcol : (x + 64 - px % 64) % 64 = k
          · have h1 : (px + k) % 64 = x := by omega
            have h2 : cy % 32 = y := hrow.symm
            simp [hcol, hb, hx', hy', h1, h2]
          · have h1 : ¬ (px + k) % 64 = x := by omega
            have h3 : (x + 64 - px % 64) % 64 < k + 1 ↔ (x + 64 - px % 64) % 64 < k := by omega
            simp [hx', h1, h3]
        · have h2 : ¬ cy % 32 = y := fun e => hrow e.symm
          simp [hrow, hy', h2]
      · rw [Bool.or_eq_true, ih2, old]
        constructor
        · rintro ((h | ⟨c, hc, h1, h2⟩) | h)
          · exact Or.inl h
          · exact Or.inr ⟨c, by omega, h1, h2⟩
          · exact Or.inr ⟨k, by omega, hb, h⟩
        · rintro (h | ⟨c, hc, h1, h2⟩)
          · exact Or.inl (Or.inl h)
          · rcases Nat.lt_or_ge c k with hck | hck
            · exact Or.inl (Or.inr ⟨c, hck, h1, h2⟩)
            · have : c = k := by omega
              subst this
              exact Or.inr h2
    · simp only [hb, if_false, Bool.false_eq_true]
      constructor
      · intro x y hx hy
        rw [ih1 x y hx hy]
        by_cases hcol : (x + 64 - px % 64) % 64 = k
        · have hb' : row.getLsbD (7 - k) = false := by simpa using hb
          simp [hcol, hb']
        · have h3 : (x + 64 - px % 64) % 64 < k + 1 ↔ (x + 64 - px % 64) % 64 < k := by omega
          simp [h3]
      · rw [ih2]
        constructor
        · rintro (h | ⟨c, hc, h1, h2⟩)
          · exact Or.inl h
          · exact Or.inr ⟨c, by omega, h1, h2⟩
        · rintro (h | ⟨c, hc, h1, h2⟩)
          · exact Or.inl h
          · have hck : c ≠ k := by
              rintro rfl
              exact hb h1
            exact Or.inr ⟨c, by omega, h1, h2⟩

/-- What drawing one sprite row does to the cells and the collision. -/
theorem drawRow_spec (d : Drawing) (px cy : Nat) (row : Byte) :
    (∀ x y, x < 64 → y < 32 → Display.cell (drawRow d px cy row).1 x y =
      (Display.cell d.1 x y ^^ (decide (y = cy % 32) && spriteBit [row] 0 ((x + 64 - px % 64) % 64)))) ∧
    ((drawRow d px cy row).2 = true ↔
      d.2 = true ∨ ∃ c, c < 8 ∧ row.getLsbD (7 - c) = true ∧ Display.cell d.1 (px + c) cy = true) := by
  obtain ⟨h1, h2⟩ := drawRow_fold px cy row 8 (Nat.le_refl 8) d
  refine ⟨?_, h2⟩
  intro x y hx hy
  have := h1 x y hx hy
  unfold drawRow
  rw [this]
  simp [spriteBit, Bool.and_assoc]

theorem spriteBit_cons_zero (row : Byte) (rows : List Byte) (c : Nat) :
    spriteBit (row :: rows) 0 c = spriteBit [row] 0 c := rfl

theorem spriteBit_cons_succ (row : Byte) (rows : List Byte) (r c : Nat) :
    spriteBit (row :: rows) (r + 1) c = spriteBit rows r c := rfl

theorem spriteBit_beyond {rows : List Byte} {r : Nat} (h : rows.length ≤ r) (c : Nat) : spriteBit rows r c = false := by
  unfold spriteBit
  rw [List.getD_eq_default _ _ h]
  simp

/-- What drawing a sprite of at most 32 rows does: each cell is exclusive-ored with the sprite bit over it, and the collision is
set exactly when some sprite bit lay over a cell that was set (R141). -/
theorem drawRows_spec (px : Nat) : ∀ (rows : List Byte) (py : Nat) (d : Drawing), rows.length ≤ 32 →
    (∀ x y, x < 64 → y < 32 → Display.cell (drawRows d px py rows).1 x y =
      (Display.cell d.1 x y ^^ spriteCovers rows px py x y)) ∧
    ((drawRows d px py rows).2 = true ↔ d.2 = true ∨
      ∃ r c, r < rows.length ∧ c < 8 ∧ spriteBit rows r c = true ∧ Display.cell d.1 (px + c) (py + r) = true) := by
  intro rows
  induction rows with
  | nil =>
    intro py d _
    have hcov : ∀ x y, spriteCovers [] px py x y = false := fun x y => spriteBit_beyond (Nat.zero_le _) _
    refine ⟨fun x y _ _ => ?_, ?_⟩
    · rw [hcov]; simp [drawRows]
    · simp [drawRows]
  | cons row rows ih =>
    intro py d hlen
    simp only [List.length_cons] at hlen
    obtain ⟨ih1, ih2⟩ := ih (py + 1) (drawRow d px py row) (by omega)
    obtain ⟨r1, r2⟩ := drawRow_spec d px py row
    have hm : ∀ (fb : Display) (a b : Nat), Display.cell fb (a % 64) (b % 32) = Display.cell fb a b := by
      intro fb a b; unfold Display.cell; simp
    have below : ∀ a r, r < rows.length →
        Display.cell (drawRow d px py row).1 a (py + 1 + r) = Display.cell d.1 a (py + 1 + r) := by
      intro a r hr
      have h := r1 (a % 64) ((py + 1 + r) % 32) (Nat.mod_lt _ (by decide)) (Nat.mod_lt _ (by decide))
      have hne : ¬ (py + 1 + r) % 32 = py % 32 := by omega
      rw [hm, hm] at h
      simpa [hne] using h
    refine ⟨fun x y hx hy => ?_, ?_⟩
    · unfold drawRows
      rw [ih1 x y hx hy, r1 x y hx hy]
      unfold spriteCovers
      generalize hc : (x + 64 - px % 64) % 64 = c
      by_cases hrow : y = py % 32
      · have h0 : (y + 32 - py % 32) % 32 = 0 := by omega
        have h31 : (y + 32 - (py + 1) % 32) % 32 = 31 := by omega
        rw [h0, h31, spriteBit_beyond (rows := rows) (by omega)]
        simp [hrow, spriteBit]
      · have hs : (y + 32 - py % 32) % 32 = (y + 32 - (py + 1) % 32) % 32 + 1 := by omega
        rw [hs, spriteBit_cons_succ]
        simp [hrow]
    · unfold drawRows
      rw [ih2, r2]
      constructor
      · rintro ((h | ⟨c, hc, h1, h2⟩) | ⟨r, c, hr, hc, h1, h2⟩)
        · exact Or.inl h
        · exact Or.inr ⟨0, c, by simp, hc, by simp [spriteBit, hc, h1], by simpa using h2⟩
        · rw [below _ r hr] at h2
          refine Or.inr ⟨r + 1, c, by simp only [List.length_cons]; omega, hc, ?_, ?_⟩
          · rw [spriteBit_cons_succ]; exact h1
          · have : py + (r + 1) = py + 1 + r := by omega
            rw [this]; exact h2
      · rintro (h | ⟨r, c, hr, hc, h1, h2⟩)
        · exact Or.inl (Or.inl h)
        · cases r with
          | zero =>
            refine Or.inl (Or.inr ⟨c, hc, ?_, by simpa using h2⟩)
            simpa [spriteBit, hc] using h1
          | succ r =>
            simp only [List.length_cons] at hr
            rw [spriteBit_cons_succ] at h1
            refine Or.inr ⟨r, c, by omega, hc, h1, ?_⟩
            rw [below _ r (by omega)]
            have : py + 1 + r = py + (r + 1) := by omega
            rw [this]; exact h2

end Sys2Proof.Machine
end

