-- ==== Sys2Proof/Laws/Encoding.lean ====
section
/-! SUPPORT. The fields of the words the encoder builds (30_encoding.md R62): one lemma per field and format. -/

namespace Sys2Proof

@[simp] theorem regOfNibble_nibbleOfReg (r : Reg) : regOfNibble (nibbleOfReg r) = r := rfl

@[simp] theorem nibbleOfReg_regOfNibble (k : BitVec 4) : nibbleOfReg (regOfNibble k) = k := rfl

/-! ## The bits of the formats and of the fields -/

theorem getLsbD_formatA (d : BitVec 4) (a : Addr) (i : Nat) :
    (formatA d a).getLsbD i = if i < 12 then a.getLsbD i else d.getLsbD (i - 12) :=
  (BitVec.getLsbD_append (x := d) (y := a)).trans (by cases decide (i < 12) <;> simp)

theorem getLsbD_formatXK (d : BitVec 4) (x : Reg) (k : Byte) (i : Nat) :
    (formatXK d x k).getLsbD i =
      if i < 8 then k.getLsbD i else if i - 8 < 4 then (nibbleOfReg x).getLsbD (i - 8) else d.getLsbD (i - 8 - 4) := by
  refine (BitVec.getLsbD_append (x := d ++ nibbleOfReg x) (y := k)).trans ?_
  rw [BitVec.getLsbD_append]

theorem getLsbD_formatXYN (d : BitVec 4) (x y : Reg) (n : BitVec 4) (i : Nat) :
    (formatXYN d x y n).getLsbD i =
      if i < 4 then n.getLsbD i
      else if i - 4 < 4 then (nibbleOfReg y).getLsbD (i - 4)
      else if i - 4 - 4 < 4 then (nibbleOfReg x).getLsbD (i - 4 - 4)
      else d.getLsbD (i - 4 - 4 - 4) := by
  refine (BitVec.getLsbD_append (x := d ++ nibbleOfReg x ++ nibbleOfReg y) (y := n)).trans ?_
  rw [BitVec.getLsbD_append, BitVec.getLsbD_append]

theorem getLsbD_wordOfBytes (hi lo : Byte) (i : Nat) :
    (wordOfBytes hi lo).getLsbD i = if i < 8 then lo.getLsbD i else hi.getLsbD (i - 8) :=
  (BitVec.getLsbD_append (x := hi) (y := lo)).trans (by cases decide (i < 8) <;> simp)

/-! ## Fields of the formats -/

@[simp] theorem topNibble_formatA (d : BitVec 4) (a : Addr) : topNibble (formatA d a) = d := by
  apply BitVec.eq_of_getLsbD_eq
  intro i hi
  simp [topNibble, getLsbD_formatA, hi]

@[simp] theorem fieldNnn_formatA (d : BitVec 4) (a : Addr) : fieldNnn (formatA d a) = a := by
  apply BitVec.eq_of_getLsbD_eq
  intro i hi
  simp [fieldNnn, getLsbD_formatA, hi]

@[simp] theorem topNibble_formatXK (d : BitVec 4) (x : Reg) (k : Byte) : topNibble (formatXK d x k) = d := by
  apply BitVec.eq_of_getLsbD_eq
  intro i hi
  have h1 : ¬ 12 + i < 8 := by omega
  have h2 : ¬ 12 + i - 8 < 4 := by omega
  have h3 : 12 + i - 8 - 4 = i := by omega
  simp [topNibble, getLsbD_formatXK, hi, h1, h2, h3]

@[simp] theorem nibbleX_formatXK (d : BitVec 4) (x : Reg) (k : Byte) : nibbleX (formatXK d x k) = nibbleOfReg x := by
  apply BitVec.eq_of_getLsbD_eq
  intro i hi
  simp [nibbleX, getLsbD_formatXK, hi]

@[simp] theorem fieldNn_formatXK (d : BitVec 4) (x : Reg) (k : Byte) : fieldNn (formatXK d x k) = k := by
  apply BitVec.eq_of_getLsbD_eq
  intro i hi
  simp [fieldNn, getLsbD_formatXK, hi]

@[simp] theorem topNibble_formatXYN (d : BitVec 4) (x y : Reg) (n : BitVec 4) : topNibble (formatXYN d x y n) = d := by
  apply BitVec.eq_of_getLsbD_eq
  intro i hi
  have h1 : ¬ 12 + i < 4 := by omega
  have h2 : ¬ 12 + i - 4 < 4 := by omega
  have h3 : ¬ 12 + i - 4 - 4 < 4 := by omega
  have h4 : 12 + i - 4 - 4 - 4 = i := by omega
  simp [topNibble, getLsbD_formatXYN, hi, h1, h2, h3, h4]

@[simp] theorem nibbleX_formatXYN (d : BitVec 4) (x y : Reg) (n : BitVec 4) : nibbleX (formatXYN d x y n) = nibbleOfReg x := by
  apply BitVec.eq_of_getLsbD_eq
  intro i hi
  have h1 : ¬ 8 + i < 4 := by omega
  have h2 : ¬ 8 + i - 4 < 4 := by omega
  have h3 : 8 + i - 4 - 4 = i := by omega
  simp [nibbleX, getLsbD_formatXYN, hi, h1, h2, h3]

@[simp] theorem nibbleY_formatXYN (d : BitVec 4) (x y : Reg) (n : BitVec 4) : nibbleY (formatXYN d x y n) = nibbleOfReg y := by
  apply BitVec.eq_of_getLsbD_eq
  intro i hi
  simp [nibbleY, getLsbD_formatXYN, hi]

@[simp] theorem nibbleN_formatXYN (d : BitVec 4) (x y : Reg) (n : BitVec 4) : nibbleN (formatXYN d x y n) = n := by
  apply BitVec.eq_of_getLsbD_eq
  intro i hi
  simp [nibbleN, getLsbD_formatXYN, hi]

@[simp] theorem fieldX_formatXK (d : BitVec 4) (x : Reg) (k : Byte) : fieldX (formatXK d x k) = x := by
  unfold fieldX; rw [nibbleX_formatXK, regOfNibble_nibbleOfReg]

@[simp] theorem fieldX_formatXYN (d : BitVec 4) (x y : Reg) (n : BitVec 4) : fieldX (formatXYN d x y n) = x := by
  unfold fieldX; rw [nibbleX_formatXYN, regOfNibble_nibbleOfReg]

@[simp] theorem fieldY_formatXYN (d : BitVec 4) (x y : Reg) (n : BitVec 4) : fieldY (formatXYN d x y n) = y := by
  unfold fieldY; rw [nibbleY_formatXYN, regOfNibble_nibbleOfReg]

@[simp] theorem fieldN_formatXYN (d : BitVec 4) (x y : Reg) (n : BitVec 4) : fieldN (formatXYN d x y n) = n.toNat := by
  unfold fieldN; rw [nibbleN_formatXYN]

/-! ## A word is its fields -/

theorem formatA_fields (op : Word) : formatA (topNibble op) (fieldNnn op) = op := by
  apply BitVec.eq_of_getLsbD_eq
  intro i hi
  rw [getLsbD_formatA]
  by_cases h : i < 12
  · simp [fieldNnn, h]
  · have h1 : i - 12 < 4 := by omega
    have h2 : 12 + (i - 12) = i := by omega
    simp [topNibble, h, h1, h2]

theorem formatXK_fields (op : Word) : formatXK (topNibble op) (fieldX op) (fieldNn op) = op := by
  apply BitVec.eq_of_getLsbD_eq
  intro i hi
  rw [getLsbD_formatXK]
  by_cases h : i < 8
  · simp [fieldNn, h]
  · by_cases h2 : i - 8 < 4
    · have h3 : 8 + (i - 8) = i := by omega
      simp [fieldX, nibbleX, h, h2, h3]
    · have h3 : i - 8 - 4 < 4 := by omega
      have h4 : 12 + (i - 8 - 4) = i := by omega
      simp [topNibble, h, h2, h3, h4]

theorem formatXYN_fields (op : Word) : formatXYN (topNibble op) (fieldX op) (fieldY op) (nibbleN op) = op := by
  apply BitVec.eq_of_getLsbD_eq
  intro i hi
  rw [getLsbD_formatXYN]
  by_cases h : i < 4
  · simp [nibbleN, h]
  · by_cases h2 : i - 4 < 4
    · have h3 : 4 + (i - 4) = i := by omega
      simp [fieldY, nibbleY, h, h2, h3]
    · by_cases h3 : i - 4 - 4 < 4
      · have h4 : 8 + (i - 4 - 4) = i := by omega
        simp [fieldX, nibbleX, h, h2, h3, h4]
      · have h4 : i - 4 - 4 - 4 < 4 := by omega
        have h5 : 12 + (i - 4 - 4 - 4) = i := by omega
        simp [topNibble, h, h2, h3, h4, h5]

/-- The two bytes of a word, put together again (R44). -/
@[simp] theorem wordOfBytes_highByte_lowByte (op : Word) : wordOfBytes (highByte op) (lowByte op) = op := by
  apply BitVec.eq_of_getLsbD_eq
  intro i hi
  rw [getLsbD_wordOfBytes]
  by_cases h : i < 8
  · simp [lowByte, h]
  · have h2 : i - 8 < 8 := by omega
    have h3 : 8 + (i - 8) = i := by omega
    simp [highByte, h, h2, h3]

@[simp] theorem highByte_wordOfBytes (hi lo : Byte) : highByte (wordOfBytes hi lo) = hi := by
  apply BitVec.eq_of_getLsbD_eq
  intro i h
  simp [highByte, getLsbD_wordOfBytes, h]

@[simp] theorem lowByte_wordOfBytes (hi lo : Byte) : lowByte (wordOfBytes hi lo) = lo := by
  apply BitVec.eq_of_getLsbD_eq
  intro i h
  simp [lowByte, getLsbD_wordOfBytes, h]

/-! ## Masks of the opcode table, and the numbers of fields -/

/-- A mask of the top nibble (R66). -/
theorem fits_top (op : Word) (d : BitVec 4) : op &&& 0xF000#16 = formatA d 0#12 ↔ topNibble op = d := by
  have ht : topNibble (op &&& 0xF000#16) = topNibble op := by
    unfold topNibble
    exact BitVec.extractLsb'_and.trans BitVec.and_allOnes
  have ha : fieldNnn (op &&& 0xF000#16) = 0#12 := by simp [fieldNnn, BitVec.extractLsb'_and]
  rw [← formatA_fields (op &&& 0xF000#16), ht, ha]
  refine ⟨fun h => ?_, fun h => h ▸ rfl⟩
  simpa using congrArg topNibble h

/-- A mask of the top and the low nibble (R66). -/
theorem fits_topLow (op : Word) (d n : BitVec 4) :
    op &&& 0xF00F#16 = formatXYN d 0 0 n ↔ topNibble op = d ∧ nibbleN op = n := by
  have ht : topNibble (op &&& 0xF00F#16) = topNibble op := by
    unfold topNibble
    exact BitVec.extractLsb'_and.trans BitVec.and_allOnes
  have hx : fieldX (op &&& 0xF00F#16) = 0 := by simp [fieldX, nibbleX, regOfNibble, BitVec.extractLsb'_and]
  have hy : fieldY (op &&& 0xF00F#16) = 0 := by simp [fieldY, nibbleY, regOfNibble, BitVec.extractLsb'_and]
  have hn : nibbleN (op &&& 0xF00F#16) = nibbleN op := by
    unfold nibbleN
    exact BitVec.extractLsb'_and.trans BitVec.and_allOnes
  rw [← formatXYN_fields (op &&& 0xF00F#16), ht, hx, hy, hn]
  refine ⟨fun h => ⟨?_, ?_⟩, fun h => by rw [h.1, h.2]⟩
  · simpa using congrArg topNibble h
  · simpa using congrArg nibbleN h

/-- A mask of the top nibble and the low byte (R66). -/
theorem fits_topByte (op : Word) (d : BitVec 4) (k : Byte) :
    op &&& 0xF0FF#16 = formatXK d 0 k ↔ topNibble op = d ∧ fieldNn op = k := by
  have ht : topNibble (op &&& 0xF0FF#16) = topNibble op := by
    unfold topNibble
    exact BitVec.extractLsb'_and.trans BitVec.and_allOnes
  have hx : fieldX (op &&& 0xF0FF#16) = 0 := by simp [fieldX, nibbleX, regOfNibble, BitVec.extractLsb'_and]
  have hn : fieldNn (op &&& 0xF0FF#16) = fieldNn op := by
    unfold fieldNn
    exact BitVec.extractLsb'_and.trans BitVec.and_allOnes
  rw [← formatXK_fields (op &&& 0xF0FF#16), ht, hx, hn]
  refine ⟨fun h => ⟨?_, ?_⟩, fun h => by rw [h.1, h.2]⟩
  · simpa using congrArg topNibble h
  · simpa using congrArg fieldNn h

/-- An `Unknown` word carries itself (R70). -/
theorem decodeWord_unknown {w op : Word} (h : decodeWord w = .unknown op) : op = w := by
  unfold decodeWord at h
  split at h <;> try cases h
  · unfold decode0 at h; split at h <;> [cases h; (split at h <;> cases h; rfl)]
  · unfold decode8 at h; split at h <;> cases h; rfl
  · unfold decodeE at h; split at h <;> cases h; rfl
  · unfold decodeF at h; split at h <;> cases h; rfl
  · rfl

theorem topNibble_toNat (op : Word) : (topNibble op).toNat = op.toNat / 0x1000 := by
  simp [topNibble, BitVec.extractLsb'_toNat, Nat.shiftRight_eq_div_pow]; omega

theorem nibbleN_toNat (op : Word) : (nibbleN op).toNat = op.toNat % 16 := by
  simp [nibbleN, BitVec.extractLsb'_toNat]

theorem fieldNn_toNat (op : Word) : (fieldNn op).toNat = op.toNat % 256 := by
  simp [fieldNn, BitVec.extractLsb'_toNat]

end Sys2Proof
end

