-- ==== Sys2Proof/Laws/Memory.lean ====
section
/-! SUPPORT. The laws of the memory and of the accesses (20_memory.md R41 to R43): read after write, a write leaves every other
address alone, every operation keeps the canonical form, and what a checked access can do. -/

namespace Sys2Proof.Machine

/-! ## Read after write -/

theorem Memory.read_filter_same (m : Memory) (a : Nat) :
    Memory.read (m.filter fun c => c.1 != a) a = Memory.unlisted := by
  induction m with
  | nil => rfl
  | cons c m ih =>
    by_cases h : c.1 = a
    · simpa [List.filter_cons, h] using ih
    · obtain ⟨k, d⟩ := c
      have h' : ¬ a = k := fun e => h e.symm
      simpa [List.filter_cons, h, Memory.read, h'] using ih

theorem Memory.read_filter_other (m : Memory) {a q : Nat} (hq : q ≠ a) :
    Memory.read (m.filter fun c => c.1 != a) q = m.read q := by
  induction m with
  | nil => rfl
  | cons c m ih =>
    obtain ⟨k, d⟩ := c
    by_cases h : k = a
    · have hk : ¬ q = k := fun e => hq (e.trans h)
      simpa [List.filter_cons, h, Memory.read, hq] using ih
    · by_cases hk : q = k
      · simp [h, Memory.read, hk]
      · simpa [List.filter_cons, h, Memory.read, hk] using ih

theorem Memory.read_insert (m : Memory) (a : Nat) (b : Byte) (q : Nat) :
    Memory.read (m.insert a b) q = if q = a then b else m.read q := by
  induction m with
  | nil => simp [Memory.insert, Memory.read]
  | cons c m ih =>
    obtain ⟨k, d⟩ := c
    unfold Memory.insert
    split
    · simp [Memory.read]
    · split
      · next h => subst h; by_cases hq : q = a <;> simp [Memory.read, hq]
      · next h =>
        by_cases hk : q = k
        · have hq : ¬ q = a := fun e => h (e.symm.trans hk)
          simp [Memory.read, hk]
          intro e; exact absurd e.symm h
        · simp [Memory.read, hk, ih]

/-- A read after a write: the written byte at its address, and what was there before at every other address. -/
theorem Memory.read_write (m : Memory) (a : Nat) (b : Byte) (q : Nat) :
    (m.write a b).read q = if q = a then b else m.read q := by
  unfold Memory.write
  split
  · next h =>
    by_cases hq : q = a
    · simp [hq, h, Memory.read_filter_same]
    · simp [hq, Memory.read_filter_other m hq]
  · exact Memory.read_insert m a b q

theorem Memory.read_writeList (bs : List Byte) : ∀ (m : Memory) (a q : Nat),
    (m.writeList a bs).read q = if h : a ≤ q ∧ q < a + bs.length then bs[q - a]'(by omega) else m.read q := by
  induction bs with
  | nil =>
    intro m a q
    have h : ¬ (a ≤ q ∧ q < a + ([] : List Byte).length) := by simp
    rw [dif_neg h]; rfl
  | cons b bs ih =>
    intro m a q
    unfold Memory.writeList
    rw [ih, Memory.read_write]
    by_cases h1 : q = a
    · subst h1
      simp
    · by_cases h2 : a ≤ q ∧ q < a + (b :: bs).length
      · simp only [List.length_cons] at h2
        have h3 : a + 1 ≤ q ∧ q < a + 1 + bs.length := by omega
        have h4 : a ≤ q ∧ q < a + (b :: bs).length := by simp only [List.length_cons]; omega
        rw [dif_pos h3, dif_pos h4, List.getElem_cons, dif_neg (by omega)]
        congr 1
      · have h3 : ¬ (a + 1 ≤ q ∧ q < a + 1 + bs.length) := by simp only [List.length_cons] at h2; omega
        rw [dif_neg h3, dif_neg h2, if_neg h1]

/-! ## The canonical form -/

theorem Memory.wfFrom_mono {m : Memory} {lo hi : Nat} (h : lo ≤ hi) (hm : m.wfFrom hi = true) : m.wfFrom lo = true := by
  cases m with
  | nil => rfl
  | cons c m =>
    obtain ⟨k, d⟩ := c
    simp only [Memory.wfFrom, Bool.and_eq_true, decide_eq_true_eq] at hm ⊢
    exact ⟨⟨⟨by omega, hm.1.1.2⟩, hm.1.2⟩, hm.2⟩

theorem Memory.wfFrom_filter (a : Nat) : ∀ (m : Memory) (lo : Nat), m.wfFrom lo = true →
    Memory.wfFrom lo (m.filter fun c => c.1 != a) = true := by
  intro m
  induction m with
  | nil => intro lo _; rfl
  | cons c m ih =>
    intro lo hm
    obtain ⟨k, d⟩ := c
    simp only [Memory.wfFrom, Bool.and_eq_true, decide_eq_true_eq] at hm
    by_cases h : k = a
    · simp only [List.filter_cons, h, bne_self_eq_false, Bool.false_eq_true, if_false]
      exact ih lo (Memory.wfFrom_mono (by omega) hm.2)
    · have h' : ((k, d).1 != a) = true := by simpa using h
      rw [List.filter_cons, if_pos h']
      simp only [Memory.wfFrom, Bool.and_eq_true, decide_eq_true_eq]
      exact ⟨⟨⟨hm.1.1.1, hm.1.1.2⟩, hm.1.2⟩, ih _ hm.2⟩

theorem Memory.wfFrom_insert (a : Nat) (b : Byte) (ha : a < memSize) (hb : (b != Memory.unlisted) = true) :
    ∀ (m : Memory) (lo : Nat), lo ≤ a → m.wfFrom lo = true → (m.insert a b).wfFrom lo = true := by
  intro m
  induction m with
  | nil =>
    intro lo hlo _
    simp only [Memory.insert, Memory.wfFrom, Bool.and_eq_true, decide_eq_true_eq]
    exact ⟨⟨⟨hlo, ha⟩, hb⟩, trivial⟩
  | cons c m ih =>
    intro lo hlo hm
    obtain ⟨k, d⟩ := c
    simp only [Memory.wfFrom, Bool.and_eq_true, decide_eq_true_eq] at hm
    unfold Memory.insert
    split
    · simp only [Memory.wfFrom, Bool.and_eq_true, decide_eq_true_eq]
      exact ⟨⟨⟨hlo, ha⟩, hb⟩, ⟨⟨by omega, hm.1.1.2⟩, hm.1.2⟩, hm.2⟩
    · split
      · next h =>
        simp only [Memory.wfFrom, Bool.and_eq_true, decide_eq_true_eq]
        exact ⟨⟨⟨hlo, ha⟩, hb⟩, by rw [h]; exact hm.2⟩
      · simp only [Memory.wfFrom, Bool.and_eq_true, decide_eq_true_eq]
        exact ⟨⟨⟨hm.1.1.1, hm.1.1.2⟩, hm.1.2⟩, ih (k + 1) (by omega) hm.2⟩

/-- A write inside the address space keeps the canonical form. -/
theorem Memory.wf_write {m : Memory} {a : Nat} {b : Byte} (ha : a < memSize) (hm : m.wf = true) : (m.write a b).wf = true := by
  unfold Memory.write
  split
  · exact Memory.wfFrom_filter a m 0 hm
  · next h => exact Memory.wfFrom_insert a b ha (by simpa using h) m 0 (Nat.zero_le a) hm

theorem Memory.wf_writeList (bs : List Byte) : ∀ {m : Memory} {a : Nat}, a + bs.length ≤ memSize → m.wf = true →
    (m.writeList a bs).wf = true := by
  induction bs with
  | nil => intro m a _ hm; exact hm
  | cons b bs ih =>
    intro m a h hm
    simp only [List.length_cons] at h
    exact ih (by omega) (Memory.wf_write (by omega) hm)

@[simp] theorem Memory.wf_nil : Memory.wf [] = true := rfl

/-- Two canonical memories that read alike are the same list. -/
theorem Memory.ext_of_read : ∀ {m n : Memory} (lo : Nat), m.wfFrom lo = true → n.wfFrom lo = true →
    (∀ q, lo ≤ q → m.read q = n.read q) → m = n := by
  have below : ∀ (m : Memory) (lo q : Nat), m.wfFrom lo = true → q < lo → m.read q = Memory.unlisted := by
    intro m
    induction m with
    | nil => intro lo q _ _; rfl
    | cons c m ih =>
      intro lo q hm hq
      obtain ⟨k, d⟩ := c
      simp only [Memory.wfFrom, Bool.and_eq_true, decide_eq_true_eq] at hm
      have hk : ¬ q = k := by omega
      simp only [Memory.read, hk, if_false]
      exact ih (k + 1) q hm.2 (by omega)
  intro m
  induction m with
  | nil =>
    intro n lo _ hn h
    cases n with
    | nil => rfl
    | cons c n =>
      obtain ⟨k, d⟩ := c
      simp only [Memory.wfFrom, Bool.and_eq_true, decide_eq_true_eq, bne_iff_ne, ne_eq] at hn
      have := h k hn.1.1.1
      simp only [Memory.read, if_true] at this
      exact absurd this.symm hn.1.2
  | cons c m ih =>
    intro n lo hm hn h
    obtain ⟨k, d⟩ := c
    simp only [Memory.wfFrom, Bool.and_eq_true, decide_eq_true_eq, bne_iff_ne, ne_eq] at hm
    cases n with
    | nil =>
      have := h k hm.1.1.1
      simp only [Memory.read, if_true] at this
      exact absurd this hm.1.2
    | cons c' n =>
      obtain ⟨k', d'⟩ := c'
      simp only [Memory.wfFrom, Bool.and_eq_true, decide_eq_true_eq, bne_iff_ne, ne_eq] at hn
      have hkk : k = k' := by
        rcases Nat.lt_trichotomy k k' with hlt | heq | hgt
        · have h1 := h k hm.1.1.1
          have hne : ¬ k = k' := by omega
          simp only [Memory.read, if_true, hne, if_false] at h1
          rw [below n (k' + 1) k hn.2 (by omega)] at h1
          exact absurd h1 hm.1.2
        · exact heq
        · have h1 := h k' hn.1.1.1
          have hne : ¬ k' = k := by omega
          simp only [Memory.read, if_true, hne, if_false] at h1
          rw [below m (k + 1) k' hm.2 (by omega)] at h1
          exact absurd h1.symm hn.1.2
      subst hkk
      have hd : d = d' := by simpa [Memory.read] using h k hm.1.1.1
      subst hd
      have : m = n := by
        refine ih (k + 1) hm.2 hn.2 ?_
        intro q hq
        have hne : ¬ q = k := by omega
        simpa [Memory.read, hne] using h q (by omega)
      rw [this]

/-! ## Accesses -/

theorem State.memRead_ok {s : State} {a : Nat} (h : a < memSize) : s.memRead a = .ok (s.byteAt a) := if_pos h

theorem State.memRead_error {s : State} {a : Nat} (h : ¬ a < memSize) : s.memRead a = .error (.outOfRangeAddress a) := if_neg h

theorem State.memWrite_ok {s : State} {a : Nat} {b : Byte} (h : a < memSize) :
    s.memWrite a b = .ok (s.setMem (s.mem.write a b)) := if_pos h

theorem State.memWrite_error {s : State} {a : Nat} {b : Byte} (h : ¬ a < memSize) :
    s.memWrite a b = .error (.outOfRangeAddress a) := if_neg h

@[simp] theorem spanOutOfRange_iff (base len : Nat) :
    spanOutOfRange base len = true ↔ len ≠ 0 ∧ memSize < base + len := by
  unfold spanOutOfRange; rw [Bool.and_eq_true, decide_eq_true_eq, decide_eq_true_eq]

theorem State.readBytes_ok (s : State) : ∀ (len base : Nat), (len = 0 ∨ base + len ≤ memSize) →
    s.readBytes base len = .ok ((List.range len).map fun k => s.byteAt (base + k)) := by
  intro len
  induction len with
  | zero => intro base _; rfl
  | succ len ih =>
    intro base h
    have h1 : base < memSize := by omega
    have h2 : len = 0 ∨ base + 1 + len ≤ memSize := by omega
    unfold State.readBytes
    rw [State.memRead_ok h1, ih (base + 1) h2]
    simp only [List.range_succ_eq_map, List.map_cons, List.map_map]
    congr 2
    apply List.map_congr_left
    intro k _
    simp only [Function.comp]
    congr 1
    omega

theorem State.writeBytes_ok : ∀ (bs : List Byte) (s : State) (base : Nat), (bs = [] ∨ base + bs.length ≤ memSize) →
    s.writeBytes base bs = .ok (s.setMem (s.mem.writeList base bs)) := by
  intro bs
  induction bs with
  | nil => intro s base _; rfl
  | cons b bs ih =>
    intro s base h
    simp only [List.length_cons, reduceCtorEq, false_or] at h
    have h1 : base < memSize := by omega
    unfold State.writeBytes
    rw [State.memWrite_ok h1]
    simp only
    rw [ih]
    · rfl
    · right; omega

/-- Everything a checked read can do. -/
theorem State.loadSpan_eq (s : State) (base len : Nat) :
    s.loadSpan base len =
      if spanOutOfRange base len then .error (.outOfRangeAddress (max base memSize))
      else .ok ((List.range len).map fun k => s.byteAt (base + k)) := by
  unfold State.loadSpan checkSpan
  by_cases h : spanOutOfRange base len = true
  · simp only [h, if_true]
  · simp only [h, if_false, Bool.false_eq_true]
    rw [spanOutOfRange_iff] at h
    exact State.readBytes_ok s len base (by omega)

/-- Everything a checked write can do. -/
theorem State.storeSpan_eq (s : State) (base : Nat) (bs : List Byte) :
    s.storeSpan base bs =
      if spanOutOfRange base bs.length then .error (.outOfRangeAddress (max base memSize))
      else .ok (s.setMem (s.mem.writeList base bs)) := by
  unfold State.storeSpan checkSpan
  by_cases h : spanOutOfRange base bs.length = true
  · simp only [h, if_true]
  · simp only [h, if_false, Bool.false_eq_true]
    rw [spanOutOfRange_iff] at h
    refine State.writeBytes_ok bs s base ?_
    by_cases hb : bs = []
    · exact Or.inl hb
    · right
      have : bs.length ≠ 0 := by simpa using hb
      omega

/-- Everything a fetch can do (R63). -/
theorem State.fetch_eq (s : State) :
    s.fetch =
      if s.pc.toNat + 1 < memSize then .ok (wordOfBytes (s.byteAt s.pc.toNat) (s.byteAt (s.pc.toNat + 1)))
      else .error (.outOfRangeAddress (max s.pc.toNat memSize)) := by
  unfold State.fetch
  by_cases h : s.pc.toNat + 1 < memSize
  · rw [State.memRead_ok (by omega), State.memRead_ok h, if_pos h]
  · rw [if_neg h]
    by_cases h1 : s.pc.toNat < memSize
    · rw [State.memRead_ok h1, State.memRead_error h]
      simp only
      congr 2
      omega
    · rw [State.memRead_error h1]
      simp only
      congr 2
      omega

end Sys2Proof.Machine
end

