-- ==== Sys2Proof/Laws/Ops.lean ====
section
/-! SUPPORT. What each shared operation can do, once: raising, the stack, register blocks, operands and flags. -/

namespace Sys2Proof.Machine

/-! ## Raising -/

@[simp] theorem orRaise_ok {α : Type} (a : α) (k : α → Result) : orRaise (.ok a) k = k a := rfl

@[simp] theorem orRaise_error {α : Type} (e : Fault) (k : α → Result) : orRaise (.error e) k = .fault e := rfl

/-- A next state comes from a value that the continuation turned into it. -/
theorem orRaise_next {α : Type} {r : Except Fault α} {k : α → Result} {t : State} (h : orRaise r k = .next t) :
    ∃ a, r = .ok a ∧ k a = .next t := by
  cases r with
  | ok a => exact ⟨a, rfl, h⟩
  | error e => exact absurd h (by simp)

/-! ## The stack -/

theorem State.push_eq (s : State) (a : Word) (h : s.stack.length ≠ s.cfg.stackLimit) :
    s.push a = .ok (s.setStack (s.stack ++ [a])) := if_neg h

theorem State.push_full (s : State) (a : Word) (h : s.stack.length = s.cfg.stackLimit) :
    s.push a = .error .stackOverflow := if_pos h

/-- Everything a push can do. -/
theorem State.push_ok {s t : State} {a : Word} (h : s.push a = .ok t) :
    s.stack.length ≠ s.cfg.stackLimit ∧ t = s.setStack (s.stack ++ [a]) := by
  unfold State.push at h
  split at h
  · exact absurd h (by simp)
  · next hne => exact ⟨hne, (Except.ok.inj h).symm⟩

theorem State.pop_concat {s : State} {l : List Word} {a : Word} (h : s.stack = l ++ [a]) :
    s.pop = .ok (a, s.setStack l) := by
  unfold State.pop
  simp [h]

theorem State.pop_empty {s : State} (h : s.stack = []) : s.pop = .error .stackUnderflow := by
  unfold State.pop
  simp [h]

/-- Everything a pop can do. -/
theorem State.pop_ok {s : State} {p : Word × State} (h : s.pop = .ok p) :
    ∃ l, s.stack = l ++ [p.1] ∧ p.2 = s.setStack l := by
  rcases List.eq_nil_or_concat s.stack with hnil | ⟨l, a, hl⟩
  · rw [State.pop_empty hnil] at h; exact absurd h (by simp)
  · rw [List.concat_eq_append] at hl
    rw [State.pop_concat hl] at h
    have h' := Except.ok.inj h
    subst h'
    exact ⟨l, hl, rfl⟩

/-! ## Register blocks -/

@[simp] theorem State.regBlock_length (s : State) (x : Reg) : (s.regBlock x).length = x.val + 1 := by
  unfold State.regBlock
  have := x.isLt
  simp

theorem State.regBlock_getElem (s : State) (x : Reg) (k : Nat) (h : k < (s.regBlock x).length) :
    (s.regBlock x)[k] = s.reg ⟨k, by have := x.isLt; simp at h; omega⟩ := by
  have h' : k < (s.v.toList.take (x.val + 1)).length := h
  exact (List.getElem_take (h := h')).trans (Vector.getElem_toList _)

/-- A block write changes the registers it reaches and no other field. -/
theorem State.setRegsFrom_frame (bs : List Byte) : ∀ (s : State) (k : Nat),
    (s.setRegsFrom k bs) = { s with v := (s.setRegsFrom k bs).v } := by
  induction bs with
  | nil => intro s k; rfl
  | cons b bs ih =>
    intro s k
    unfold State.setRegsFrom
    rw [ih]
    split <;> rfl

/-- The registers after a block write. -/
theorem State.setRegsFrom_reg (bs : List Byte) : ∀ (s : State) (k : Nat) (r : Reg),
    (s.setRegsFrom k bs).reg r =
      if h : k ≤ r.val ∧ r.val < k + bs.length then bs[r.val - k]'(by omega) else s.reg r := by
  induction bs with
  | nil =>
    intro s k r
    rw [dif_neg (by simp)]
    rfl
  | cons b bs ih =>
    intro s k r
    unfold State.setRegsFrom
    rw [ih]
    have hr := r.isLt
    by_cases h1 : r.val = k
    · have hk : k < 16 := by omega
      have hx : r = ⟨k, hk⟩ := Fin.ext h1
      have h2 : ¬ (k + 1 ≤ r.val ∧ r.val < k + 1 + bs.length) := by omega
      have h3 : k ≤ r.val ∧ r.val < k + (b :: bs).length := by simp only [List.length_cons]; omega
      rw [dif_neg h2, dif_pos h3, dif_pos hk, State.reg_setReg, if_pos hx, List.getElem_cons, dif_pos (by omega)]
    · have hother : (if h : k < 16 then s.setReg ⟨k, h⟩ b else s).reg r = s.reg r := by
        split
        · next hk =>
          rw [State.reg_setReg, if_neg]
          intro e
          exact h1 (congrArg Fin.val e)
        · rfl
      by_cases h2 : k + 1 ≤ r.val ∧ r.val < k + 1 + bs.length
      · have h3 : k ≤ r.val ∧ r.val < k + (b :: bs).length := by simp only [List.length_cons]; omega
        rw [dif_pos h2, dif_pos h3, List.getElem_cons, dif_neg (by omega)]
        congr 1
      · have h3 : ¬ (k ≤ r.val ∧ r.val < k + (b :: bs).length) := by simp only [List.length_cons]; omega
        rw [dif_neg h2, dif_neg h3, hother]

/-! ## Operands -/

@[simp] theorem jumpTarget_toNat (nnn : Addr) : (jumpTarget nnn).toNat = nnn.toNat := by
  have := nnn.isLt
  simp [jumpTarget, Addr.zext]
  omega

theorem State.jumpTargetV0_toNat (s : State) (nnn : Addr) :
    (s.jumpTargetV0 nnn).toNat = nnn.toNat + (s.reg 0).toNat := by
  have h1 := nnn.isLt
  have h2 := (s.reg 0).isLt
  simp [State.jumpTargetV0, Addr.zext, Byte.zext]
  omega

@[simp] theorem State.effectiveAddress_zero (s : State) : s.effectiveAddress 0 = s.i.toNat := rfl

@[simp] theorem decimalDigits_length (b : Byte) : (decimalDigits b).length = 3 := rfl

theorem lowNibble_toNat (b : Byte) : (b &&& 0x0F#8).toNat = b.toNat % 16 := by
  rw [BitVec.toNat_and]
  exact Nat.and_two_pow_sub_one_eq_mod b.toNat 4

theorem State.glyphAddress_toNat (s : State) (b : Byte) :
    (s.glyphAddress b).toNat = s.cfg.fontBase.val + 5 * (b.toNat % 16) := by
  have h1 := s.cfg.fontBase.isLt
  have h2 := Nat.mod_lt b.toNat (show 0 < 16 by decide)
  unfold State.glyphAddress glyphBytes
  rw [lowNibble_toNat, BitVec.toNat_ofNat]
  omega

/-! ## Flags -/

@[simp] theorem flagByte_true : flagByte true = 0x01#8 := rfl
@[simp] theorem flagByte_false : flagByte false = 0x00#8 := rfl

theorem flagByte_toNat (p : Bool) : (flagByte p).toNat = if p then 1 else 0 := by cases p <;> rfl

theorem State.resultThenFlag_reg (s : State) (x r : Reg) (a f : Byte) :
    (s.resultThenFlag x a f).reg r = if r = regF then f else if r = x then a else s.reg r := by
  unfold State.resultThenFlag
  rw [State.reg_setReg, State.reg_setReg]

/-- Result and flag go to registers and to no other field. -/
theorem State.resultThenFlag_frame (s : State) (x : Reg) (a f : Byte) :
    s.resultThenFlag x a f = { s with v := (s.resultThenFlag x a f).v } := rfl

end Sys2Proof.Machine
end

