-- ==== Sys2Proof/Laws/Events.lean ====
section
/-! SUPPORT. Small lemmas of the host's moves (10_state.md R31): one per field per update, and what the operations behind the events
do. -/

namespace Sys2Proof.Machine

/-! ### `setKey` -/

@[simp] theorem State.setKey_v (s : State) (k : Key) : (s.setKey k).v = s.v := rfl
@[simp] theorem State.setKey_pc (s : State) (k : Key) : (s.setKey k).pc = s.pc := rfl
@[simp] theorem State.setKey_i (s : State) (k : Key) : (s.setKey k).i = s.i := rfl
@[simp] theorem State.setKey_dt (s : State) (k : Key) : (s.setKey k).dt = s.dt := rfl
@[simp] theorem State.setKey_st (s : State) (k : Key) : (s.setKey k).st = s.st := rfl
@[simp] theorem State.setKey_stack (s : State) (k : Key) : (s.setKey k).stack = s.stack := rfl
@[simp] theorem State.setKey_mem (s : State) (k : Key) : (s.setKey k).mem = s.mem := rfl
@[simp] theorem State.setKey_fb (s : State) (k : Key) : (s.setKey k).fb = s.fb := rfl
@[simp] theorem State.setKey_key (s : State) (k : Key) : (s.setKey k).key = k := rfl
@[simp] theorem State.setKey_cfg (s : State) (k : Key) : (s.setKey k).cfg = s.cfg := rfl
@[simp] theorem State.setKey_draws (s : State) (k : Key) : (s.setKey k).draws = s.draws := rfl
@[simp] theorem State.setKey_reg (s : State) (k : Key) (r : Reg) : (s.setKey k).reg r = s.reg r := rfl
@[simp] theorem State.setKey_byteAt (s : State) (k : Key) (q : Nat) : (s.setKey k).byteAt q = s.byteAt q := rfl

/-! ### `setCfg` -/

@[simp] theorem State.setCfg_v (s : State) (c : Config) : (s.setCfg c).v = s.v := rfl
@[simp] theorem State.setCfg_pc (s : State) (c : Config) : (s.setCfg c).pc = s.pc := rfl
@[simp] theorem State.setCfg_i (s : State) (c : Config) : (s.setCfg c).i = s.i := rfl
@[simp] theorem State.setCfg_dt (s : State) (c : Config) : (s.setCfg c).dt = s.dt := rfl
@[simp] theorem State.setCfg_st (s : State) (c : Config) : (s.setCfg c).st = s.st := rfl
@[simp] theorem State.setCfg_stack (s : State) (c : Config) : (s.setCfg c).stack = s.stack := rfl
@[simp] theorem State.setCfg_mem (s : State) (c : Config) : (s.setCfg c).mem = s.mem := rfl
@[simp] theorem State.setCfg_fb (s : State) (c : Config) : (s.setCfg c).fb = s.fb := rfl
@[simp] theorem State.setCfg_key (s : State) (c : Config) : (s.setCfg c).key = s.key := rfl
@[simp] theorem State.setCfg_cfg (s : State) (c : Config) : (s.setCfg c).cfg = c := rfl
@[simp] theorem State.setCfg_draws (s : State) (c : Config) : (s.setCfg c).draws = s.draws := rfl
@[simp] theorem State.setCfg_reg (s : State) (c : Config) (r : Reg) : (s.setCfg c).reg r = s.reg r := rfl
@[simp] theorem State.setCfg_byteAt (s : State) (c : Config) (q : Nat) : (s.setCfg c).byteAt q = s.byteAt q := rfl

/-! ### `setDraws` -/

@[simp] theorem State.setDraws_v (s : State) (n : Nat) : (s.setDraws n).v = s.v := rfl
@[simp] theorem State.setDraws_pc (s : State) (n : Nat) : (s.setDraws n).pc = s.pc := rfl
@[simp] theorem State.setDraws_i (s : State) (n : Nat) : (s.setDraws n).i = s.i := rfl
@[simp] theorem State.setDraws_dt (s : State) (n : Nat) : (s.setDraws n).dt = s.dt := rfl
@[simp] theorem State.setDraws_st (s : State) (n : Nat) : (s.setDraws n).st = s.st := rfl
@[simp] theorem State.setDraws_stack (s : State) (n : Nat) : (s.setDraws n).stack = s.stack := rfl
@[simp] theorem State.setDraws_mem (s : State) (n : Nat) : (s.setDraws n).mem = s.mem := rfl
@[simp] theorem State.setDraws_fb (s : State) (n : Nat) : (s.setDraws n).fb = s.fb := rfl
@[simp] theorem State.setDraws_key (s : State) (n : Nat) : (s.setDraws n).key = s.key := rfl
@[simp] theorem State.setDraws_cfg (s : State) (n : Nat) : (s.setDraws n).cfg = s.cfg := rfl
@[simp] theorem State.setDraws_draws (s : State) (n : Nat) : (s.setDraws n).draws = n := rfl
@[simp] theorem State.setDraws_reg (s : State) (n : Nat) (r : Reg) : (s.setDraws n).reg r = s.reg r := rfl
@[simp] theorem State.setDraws_byteAt (s : State) (n : Nat) (q : Nat) : (s.setDraws n).byteAt q = s.byteAt q := rfl

/-! ### The host's moves -/

theorem tickDown_toNat (b : Byte) : (tickDown b).toNat = b.toNat - 1 := by
  unfold tickDown
  by_cases h : b = 0x00#8
  · simp [h]
  · have h1 : b.toNat ≠ 0 := fun e => h (BitVec.eq_of_toNat_eq e)
    rw [if_neg h, BitVec.toNat_sub]
    have := b.isLt
    simp
    omega

theorem keyOfByte_byteOfKey (k : Key) : keyOfByte (byteOfKey k) = some k := by
  cases k with
  | none => rfl
  | some c => revert c; decide

/-- Everything a reset can do. -/
theorem State.resetWith_ok {d : Nat} {c : Config} {rom font : List Byte} {t : State}
    (h : State.resetWith d c rom font = .ok t) :
    c.wf = true ∧ rom.length ≤ maxRomBytes ∧ font.length = fontBytes ∧
      t = ((State.reset.setCfg c).setMem (resetMemory c rom font)).setDraws d := by
  unfold State.resetWith at h
  split at h
  · exact absurd h (by simp)
  · next hc =>
    split at h
    · exact absurd h (by simp)
    · next hl =>
      rw [not_or, Nat.not_lt, not_not] at hl
      exact ⟨by simpa using hc, hl.1, hl.2, (Except.ok.inj h).symm⟩

/-- The memory after a legal reset is in canonical form. -/
theorem resetMemory_wf {c : Config} {rom font : List Byte} (hr : rom.length ≤ maxRomBytes) (hf : font.length = fontBytes) :
    (resetMemory c rom font).wf = true := by
  have := c.fontBase.isLt
  have hr' : rom.length ≤ 3584 := hr
  have hf' : font.length = 80 := hf
  refine Memory.wf_writeList rom ?_ (Memory.wf_writeList font ?_ Memory.wf_nil)
  · show 512 + rom.length ≤ 4096
    omega
  · show c.fontBase.val + font.length ≤ 4096
    omega

end Sys2Proof.Machine
end

