-- ==== Sys2Proof/Laws/PerInstr.lean ====
section
/-! SUPPORT. Per instruction: the canonical word fits the row of its kind in the opcode table (30_encoding.md R66). -/

namespace Sys2Proof.Laws

/-- The canonical word of an instruction fits the row of its kind (R66). -/
def RowFits.Statement (i : Instr) : Prop :=
  ∃ r ∈ opcodeTable, r.kind = i.kind ∧ encode i &&& r.mask = r.pattern

theorem RowFits.cls : RowFits.Statement .cls :=
  ⟨⟨.clearDisplay, 0x00E0#16, 0xFFFF#16⟩, by decide, rfl, by decide⟩

theorem RowFits.ret : RowFits.Statement .ret :=
  ⟨⟨.returnFromSubroutine, 0x00EE#16, 0xFFFF#16⟩, by decide, rfl, by decide⟩

theorem RowFits.jp (nnn : Addr) : RowFits.Statement (.jp nnn) :=
  ⟨⟨.jump, 0x1000#16, 0xF000#16⟩, by decide, rfl, (fits_top _ 0x1#4).2 (by simp [encode])⟩

theorem RowFits.call (nnn : Addr) : RowFits.Statement (.call nnn) :=
  ⟨⟨.callSubroutine, 0x2000#16, 0xF000#16⟩, by decide, rfl, (fits_top _ 0x2#4).2 (by simp [encode])⟩

theorem RowFits.seVxNn (x : Reg) (nn : Byte) : RowFits.Statement (.seVxNn x nn) :=
  ⟨⟨.skipIfEqualImmediate, 0x3000#16, 0xF000#16⟩, by decide, rfl, (fits_top _ 0x3#4).2 (by simp [encode])⟩

theorem RowFits.sneVxNn (x : Reg) (nn : Byte) : RowFits.Statement (.sneVxNn x nn) :=
  ⟨⟨.skipIfNotEqualImmediate, 0x4000#16, 0xF000#16⟩, by decide, rfl, (fits_top _ 0x4#4).2 (by simp [encode])⟩

theorem RowFits.seVxVy (x : Reg) (y : Reg) : RowFits.Statement (.seVxVy x y) :=
  ⟨⟨.skipIfRegistersEqual, 0x5000#16, 0xF000#16⟩, by decide, rfl, (fits_top _ 0x5#4).2 (by simp [encode])⟩

theorem RowFits.ldVxNn (x : Reg) (nn : Byte) : RowFits.Statement (.ldVxNn x nn) :=
  ⟨⟨.loadImmediate, 0x6000#16, 0xF000#16⟩, by decide, rfl, (fits_top _ 0x6#4).2 (by simp [encode])⟩

theorem RowFits.addVxNn (x : Reg) (nn : Byte) : RowFits.Statement (.addVxNn x nn) :=
  ⟨⟨.addImmediate, 0x7000#16, 0xF000#16⟩, by decide, rfl, (fits_top _ 0x7#4).2 (by simp [encode])⟩

theorem RowFits.ldVxVy (x : Reg) (y : Reg) : RowFits.Statement (.ldVxVy x y) :=
  ⟨⟨.assign, 0x8000#16, 0xF00F#16⟩, by decide, rfl, (fits_topLow _ 0x8#4 0x0#4).2 (by simp [encode])⟩

theorem RowFits.orVxVy (x : Reg) (y : Reg) : RowFits.Statement (.orVxVy x y) :=
  ⟨⟨.or_, 0x8001#16, 0xF00F#16⟩, by decide, rfl, (fits_topLow _ 0x8#4 0x1#4).2 (by simp [encode])⟩

theorem RowFits.andVxVy (x : Reg) (y : Reg) : RowFits.Statement (.andVxVy x y) :=
  ⟨⟨.and_, 0x8002#16, 0xF00F#16⟩, by decide, rfl, (fits_topLow _ 0x8#4 0x2#4).2 (by simp [encode])⟩

theorem RowFits.xorVxVy (x : Reg) (y : Reg) : RowFits.Statement (.xorVxVy x y) :=
  ⟨⟨.xor, 0x8003#16, 0xF00F#16⟩, by decide, rfl, (fits_topLow _ 0x8#4 0x3#4).2 (by simp [encode])⟩

theorem RowFits.addVxVy (x : Reg) (y : Reg) : RowFits.Statement (.addVxVy x y) :=
  ⟨⟨.add, 0x8004#16, 0xF00F#16⟩, by decide, rfl, (fits_topLow _ 0x8#4 0x4#4).2 (by simp [encode])⟩

theorem RowFits.subVxVy (x : Reg) (y : Reg) : RowFits.Statement (.subVxVy x y) :=
  ⟨⟨.sub, 0x8005#16, 0xF00F#16⟩, by decide, rfl, (fits_topLow _ 0x8#4 0x5#4).2 (by simp [encode])⟩

theorem RowFits.shrVxVy (x : Reg) (y : Reg) : RowFits.Statement (.shrVxVy x y) :=
  ⟨⟨.shiftRight, 0x8006#16, 0xF00F#16⟩, by decide, rfl, (fits_topLow _ 0x8#4 0x6#4).2 (by simp [encode])⟩

theorem RowFits.subnVxVy (x : Reg) (y : Reg) : RowFits.Statement (.subnVxVy x y) :=
  ⟨⟨.subReverse, 0x8007#16, 0xF00F#16⟩, by decide, rfl, (fits_topLow _ 0x8#4 0x7#4).2 (by simp [encode])⟩

theorem RowFits.shlVxVy (x : Reg) (y : Reg) : RowFits.Statement (.shlVxVy x y) :=
  ⟨⟨.shiftLeft, 0x800E#16, 0xF00F#16⟩, by decide, rfl, (fits_topLow _ 0x8#4 0xE#4).2 (by simp [encode])⟩

theorem RowFits.sneVxVy (x : Reg) (y : Reg) : RowFits.Statement (.sneVxVy x y) :=
  ⟨⟨.skipIfRegistersNotEqual, 0x9000#16, 0xF000#16⟩, by decide, rfl, (fits_top _ 0x9#4).2 (by simp [encode])⟩

theorem RowFits.ldINnn (nnn : Addr) : RowFits.Statement (.ldINnn nnn) :=
  ⟨⟨.loadIndex, 0xA000#16, 0xF000#16⟩, by decide, rfl, (fits_top _ 0xA#4).2 (by simp [encode])⟩

theorem RowFits.jpV0Nnn (nnn : Addr) : RowFits.Statement (.jpV0Nnn nnn) :=
  ⟨⟨.jumpPlusV0, 0xB000#16, 0xF000#16⟩, by decide, rfl, (fits_top _ 0xB#4).2 (by simp [encode])⟩

theorem RowFits.rndVxNn (x : Reg) (nn : Byte) : RowFits.Statement (.rndVxNn x nn) :=
  ⟨⟨.loadRandomMasked, 0xC000#16, 0xF000#16⟩, by decide, rfl, (fits_top _ 0xC#4).2 (by simp [encode])⟩

theorem RowFits.drw (x : Reg) (y : Reg) (n : Nat) : RowFits.Statement (.drw x y n) :=
  ⟨⟨.drawSprite, 0xD000#16, 0xF000#16⟩, by decide, rfl, (fits_top _ 0xD#4).2 (by simp [encode])⟩

theorem RowFits.skp (x : Reg) : RowFits.Statement (.skp x) :=
  ⟨⟨.skipIfKeyPressed, 0xE09E#16, 0xF0FF#16⟩, by decide, rfl, (fits_topByte _ 0xE#4 0x9E#8).2 (by simp [encode])⟩

theorem RowFits.sknp (x : Reg) : RowFits.Statement (.sknp x) :=
  ⟨⟨.skipIfKeyNotPressed, 0xE0A1#16, 0xF0FF#16⟩, by decide, rfl, (fits_topByte _ 0xE#4 0xA1#8).2 (by simp [encode])⟩

theorem RowFits.ldVxDt (x : Reg) : RowFits.Statement (.ldVxDt x) :=
  ⟨⟨.getDelay, 0xF007#16, 0xF0FF#16⟩, by decide, rfl, (fits_topByte _ 0xF#4 0x07#8).2 (by simp [encode])⟩

theorem RowFits.ldVxK (x : Reg) : RowFits.Statement (.ldVxK x) :=
  ⟨⟨.waitForKey, 0xF00A#16, 0xF0FF#16⟩, by decide, rfl, (fits_topByte _ 0xF#4 0x0A#8).2 (by simp [encode])⟩

theorem RowFits.ldDtVx (x : Reg) : RowFits.Statement (.ldDtVx x) :=
  ⟨⟨.setDelay, 0xF015#16, 0xF0FF#16⟩, by decide, rfl, (fits_topByte _ 0xF#4 0x15#8).2 (by simp [encode])⟩

theorem RowFits.ldStVx (x : Reg) : RowFits.Statement (.ldStVx x) :=
  ⟨⟨.setSound, 0xF018#16, 0xF0FF#16⟩, by decide, rfl, (fits_topByte _ 0xF#4 0x18#8).2 (by simp [encode])⟩

theorem RowFits.addIVx (x : Reg) : RowFits.Statement (.addIVx x) :=
  ⟨⟨.addToIndex, 0xF01E#16, 0xF0FF#16⟩, by decide, rfl, (fits_topByte _ 0xF#4 0x1E#8).2 (by simp [encode])⟩

theorem RowFits.ldFVx (x : Reg) : RowFits.Statement (.ldFVx x) :=
  ⟨⟨.loadFontAddress, 0xF029#16, 0xF0FF#16⟩, by decide, rfl, (fits_topByte _ 0xF#4 0x29#8).2 (by simp [encode])⟩

theorem RowFits.ldBVx (x : Reg) : RowFits.Statement (.ldBVx x) :=
  ⟨⟨.storeBcd, 0xF033#16, 0xF0FF#16⟩, by decide, rfl, (fits_topByte _ 0xF#4 0x33#8).2 (by simp [encode])⟩

theorem RowFits.ldMemVx (x : Reg) : RowFits.Statement (.ldMemVx x) :=
  ⟨⟨.saveRegisters, 0xF055#16, 0xF0FF#16⟩, by decide, rfl, (fits_topByte _ 0xF#4 0x55#8).2 (by simp [encode])⟩

theorem RowFits.ldVxMem (x : Reg) : RowFits.Statement (.ldVxMem x) :=
  ⟨⟨.loadRegisters, 0xF065#16, 0xF0FF#16⟩, by decide, rfl, (fits_topByte _ 0xF#4 0x65#8).2 (by simp [encode])⟩

end Sys2Proof.Laws
end

