-- ==== Sys2Proof/Laws/Step.lean ====
section
/-! SUPPORT. What a fetch, a step and the instructions with an access can do, once, for the proofs about exec and step. -/

namespace Sys2Proof.Machine

/-! ## Fetch and step -/

theorem State.fetch_of_fetchable {s : State} (h : s.fetchable) : s.fetch = .ok s.wordAtPc := by
  rw [State.fetch_eq, if_pos (show s.pc.toNat + 1 < 4096 by have h' : s.pc.toNat ≤ 0xFFE := h; omega)]
  rfl

theorem State.fetch_of_not_fetchable {s : State} (h : ¬ s.fetchable) :
    s.fetch = .error (.outOfRangeAddress (max s.pc.toNat 0x1000)) := by
  rw [State.fetch_eq, if_neg (show ¬ s.pc.toNat + 1 < 4096 by have h' : ¬ s.pc.toNat ≤ 0xFFE := h; omega)]

theorem step_of_fetchable {s : State} (h : s.fetchable) : step s = execDecoded (decodeWord s.wordAtPc) s.advance := by
  unfold step
  rw [State.fetch_of_fetchable h, orRaise_ok]

theorem step_of_not_fetchable {s : State} (h : ¬ s.fetchable) :
    step s = .fault (.outOfRangeAddress (max s.pc.toNat 0x1000)) := by
  unfold step
  rw [State.fetch_of_not_fetchable h, orRaise_error]

/-- Everything a step that goes on can be: the execution of a recognised instruction, or an `Unknown` word passed over. -/
theorem step_next {s t : State} (h : step s = .next t) :
    s.fetchable ∧
      ((∃ i, decodeWord s.wordAtPc = .recognised i ∧ exec i s.advance = .next t) ∨
       (∃ op, decodeWord s.wordAtPc = .unknown op ∧ s.cfg.strictUnknown = false ∧ t = s.advance)) := by
  by_cases hf : s.fetchable
  · refine ⟨hf, ?_⟩
    rw [step_of_fetchable hf] at h
    cases hd : decodeWord s.wordAtPc with
    | recognised i =>
      rw [hd] at h
      exact Or.inl ⟨i, rfl, h⟩
    | unknown op =>
      rw [hd] at h
      by_cases hs : s.cfg.strictUnknown = true
      · have h' : raise (.unknownInstruction op) = .next t := by
          have := h
          unfold execDecoded execUnknown at this
          simpa [hs] using this
        exact absurd h' (by simp [raise])
      · have hs' : s.cfg.strictUnknown = false := by simpa using hs
        have h' : (Host.Outcome.next s.advance : Result) = .next t := by
          have := h
          unfold execDecoded execUnknown at this
          simpa [hs'] using this
        exact Or.inr ⟨op, rfl, hs', (Host.Outcome.next.inj h').symm⟩
  · rw [step_of_not_fetchable hf] at h
    exact absurd h (by simp)

theorem afterStep_of_fetchable {s : State} (h : s.fetchable) :
    afterStep s = stateOr (execDecoded (decodeWord s.wordAtPc) s.advance) s.advance := by
  unfold afterStep
  rw [State.fetch_of_fetchable h]

theorem afterStep_of_not_fetchable {s : State} (h : ¬ s.fetchable) : afterStep s = s := by
  unfold afterStep
  rw [State.fetch_of_not_fetchable h]

theorem outcomeOf_of_fetchable {s : State} (h : s.fetchable) :
    outcomeOf s = executeOutcome (decodeWord s.wordAtPc) s.advance := by
  unfold outcomeOf
  rw [State.fetch_of_fetchable h]

theorem outcomeOf_of_not_fetchable {s : State} (h : ¬ s.fetchable) :
    outcomeOf s = .fault (.outOfRangeAddress (max s.pc.toNat 0x1000)) := by
  unfold outcomeOf
  rw [State.fetch_of_not_fetchable h]

/-- A run of no steps. -/
@[simp] theorem core_run_zero (s : State) : Host.Core.run Sys2Proof.core 0 s = .next s := rfl

/-- A run of one more step goes on from the state the first one leaves. -/
theorem core_run_next {s t : State} (k : Nat) (h : step s = .next t) :
    Host.Core.run Sys2Proof.core (k + 1) s = Host.Core.run Sys2Proof.core k t := by
  have h' : Sys2Proof.core.step s = .next t := h
  simp only [Host.Core.run]
  rw [h']

/-- A run ends at its first fault. -/
theorem core_run_fault {s : State} {e : Fault} (k : Nat) (h : step s = .fault e) :
    Host.Core.run Sys2Proof.core (k + 1) s = .fault e := by
  have h' : Sys2Proof.core.step s = .fault e := h
  simp only [Host.Core.run]
  rw [h']

/-! ## The instructions with an access (R43) -/

theorem spanFaults_iff (s : State) (len : Nat) : s.spanFaults len ↔ spanOutOfRange (s.effectiveAddress 0) len = true := by
  rw [spanOutOfRange_iff]
  unfold State.spanFaults State.effectiveAddress
  show _ ↔ len ≠ 0 ∧ 4096 < s.i.toNat + 0 + len
  omega

theorem execDrw_eq (x y : Reg) (n : Nat) (s : State) (h : ¬ s.spanFaults n) :
    execDrw x y n s =
      .next ((s.setFb (drawSprite s.fb (s.reg x).toNat (s.reg y).toNat
          ((List.range n).map fun k => s.byteAt (s.i.toNat + k))).1).setReg regF
        (collisionFlag (drawSprite s.fb (s.reg x).toNat (s.reg y).toNat
          ((List.range n).map fun k => s.byteAt (s.i.toNat + k))).2)) := by
  rw [spanFaults_iff] at h
  unfold execDrw
  rw [State.loadSpan_eq, if_neg h, orRaise_ok]
  rfl

theorem execDrw_fault (x y : Reg) (n : Nat) (s : State) (h : s.spanFaults n) :
    execDrw x y n s = .fault (.outOfRangeAddress (max s.i.toNat 0x1000)) := by
  rw [spanFaults_iff] at h
  unfold execDrw
  rw [State.loadSpan_eq, if_pos h, orRaise_error]
  rfl

theorem execLdBVx_eq (x : Reg) (s : State) (h : ¬ s.spanFaults 3) :
    execLdBVx x s = .next (s.setMem (s.mem.writeList s.i.toNat (decimalDigits (s.reg x)))) := by
  rw [spanFaults_iff] at h
  unfold execLdBVx
  rw [State.storeSpan_eq, decimalDigits_length, if_neg h, orRaise_ok]
  rfl

theorem execLdBVx_fault (x : Reg) (s : State) (h : s.spanFaults 3) :
    execLdBVx x s = .fault (.outOfRangeAddress (max s.i.toNat 0x1000)) := by
  rw [spanFaults_iff] at h
  unfold execLdBVx
  rw [State.storeSpan_eq, decimalDigits_length, if_pos h, orRaise_error]
  rfl

theorem execLdMemVx_eq (x : Reg) (s : State) (h : ¬ s.spanFaults (x.val + 1)) :
    execLdMemVx x s = .next (s.setMem (s.mem.writeList s.i.toNat (s.regBlock x))) := by
  rw [spanFaults_iff] at h
  unfold execLdMemVx
  rw [State.storeSpan_eq, State.regBlock_length, if_neg h, orRaise_ok]
  rfl

theorem execLdMemVx_fault (x : Reg) (s : State) (h : s.spanFaults (x.val + 1)) :
    execLdMemVx x s = .fault (.outOfRangeAddress (max s.i.toNat 0x1000)) := by
  rw [spanFaults_iff] at h
  unfold execLdMemVx
  rw [State.storeSpan_eq, State.regBlock_length, if_pos h, orRaise_error]
  rfl

theorem execLdVxMem_eq (x : Reg) (s : State) (h : ¬ s.spanFaults (x.val + 1)) :
    execLdVxMem x s = .next (s.setRegsFrom 0 ((List.range (x.val + 1)).map fun k => s.byteAt (s.i.toNat + k))) := by
  rw [spanFaults_iff] at h
  unfold execLdVxMem
  rw [State.loadSpan_eq, if_neg h, orRaise_ok]
  rfl

theorem execLdVxMem_fault (x : Reg) (s : State) (h : s.spanFaults (x.val + 1)) :
    execLdVxMem x s = .fault (.outOfRangeAddress (max s.i.toNat 0x1000)) := by
  rw [spanFaults_iff] at h
  unfold execLdVxMem
  rw [State.loadSpan_eq, if_pos h, orRaise_error]
  rfl

/-! ## Frames -/

/-- A frame holds of a state and itself. -/
theorem ChangesOnly.refl (parts : List Part) (s : State) : ChangesOnly parts s s := by
  intro p _
  cases p <;> simp [SameIn]

end Sys2Proof.Machine
end

