-- ==== Sys2Proof/Tests/Slice0.lean ====
section
/-! SUPPORT. The model's own tests. The expected results are the vectors T<n> of 95_test_vectors.md, written out by hand; each is one step
on a small state. The witnesses at the end show, for every statement of Certificates/Slice0/Obligations.lean that has hypotheses, a state and
operands that meet them, at the boundary of each clause. -/

namespace Sys2Proof.Tests

open Sys2Proof.Machine

/-! ## Well-formedness -/

/-- The one check of WellFormed: a height of 16 does not fit the field `n`. -/
theorem test_wf_refuses_height_16 : Instr.wf (.drw 0 0 16) = false := by decide

theorem test_wf_accepts_height_15 : Instr.wf (.drw 0 0 15) = true := by decide

/-! ## Decoding, each word written out from the encoding column of R66 -/

theorem test_decode_fixed_words :
    decodeWord 0b0000000011100000#16 = .recognised .cls ∧ decodeWord 0b0000000011101110#16 = .recognised .ret := by decide

theorem test_decode_address_words :
    decodeWord 0b0001101010111100#16 = .recognised (.jp 0xABC#12) ∧
    decodeWord 0b0010101010111100#16 = .recognised (.call 0xABC#12) ∧
    decodeWord 0b1010101010111100#16 = .recognised (.ldINnn 0xABC#12) ∧
    decodeWord 0b1011101010111100#16 = .recognised (.jpV0Nnn 0xABC#12) := by decide

theorem test_decode_immediate_words :
    decodeWord 0b0011101001000010#16 = .recognised (.seVxNn 10 0x42#8) ∧
    decodeWord 0b0100101001000010#16 = .recognised (.sneVxNn 10 0x42#8) ∧
    decodeWord 0b0110101001000010#16 = .recognised (.ldVxNn 10 0x42#8) ∧
    decodeWord 0b0111101001000010#16 = .recognised (.addVxNn 10 0x42#8) ∧
    decodeWord 0b1100101001000010#16 = .recognised (.rndVxNn 10 0x42#8) := by decide

/-- The low nibble is ignored under top nibbles 5 and 9 (R71). -/
theorem test_decode_register_skips :
    decodeWord 0b0101000100100000#16 = .recognised (.seVxVy 1 2) ∧
    decodeWord 0b0101000100101111#16 = .recognised (.seVxVy 1 2) ∧
    decodeWord 0b1001000100100000#16 = .recognised (.sneVxVy 1 2) ∧
    decodeWord 0b1001000100100111#16 = .recognised (.sneVxVy 1 2) := by decide

theorem test_decode_alu_words :
    decodeWord 0b1000000100100000#16 = .recognised (.ldVxVy 1 2) ∧
    decodeWord 0b1000000100100001#16 = .recognised (.orVxVy 1 2) ∧
    decodeWord 0b1000000100100010#16 = .recognised (.andVxVy 1 2) ∧
    decodeWord 0b1000000100100011#16 = .recognised (.xorVxVy 1 2) ∧
    decodeWord 0b1000000100100100#16 = .recognised (.addVxVy 1 2) ∧
    decodeWord 0b1000000100100101#16 = .recognised (.subVxVy 1 2) ∧
    decodeWord 0b1000000100100110#16 = .recognised (.shrVxVy 1 2) ∧
    decodeWord 0b1000000100100111#16 = .recognised (.subnVxVy 1 2) ∧
    decodeWord 0b1000000100101110#16 = .recognised (.shlVxVy 1 2) := by decide

theorem test_decode_draw_and_key_words :
    decodeWord 0b1101000100100101#16 = .recognised (.drw 1 2 5) ∧
    decodeWord 0b1110001110011110#16 = .recognised (.skp 3) ∧
    decodeWord 0b1110001110100001#16 = .recognised (.sknp 3) := by decide

theorem test_decode_f_words :
    decodeWord 0b1111001100000111#16 = .recognised (.ldVxDt 3) ∧
    decodeWord 0b1111001100001010#16 = .recognised (.ldVxK 3) ∧
    decodeWord 0b1111001100010101#16 = .recognised (.ldDtVx 3) ∧
    decodeWord 0b1111001100011000#16 = .recognised (.ldStVx 3) ∧
    decodeWord 0b1111001100011110#16 = .recognised (.addIVx 3) ∧
    decodeWord 0b1111001100101001#16 = .recognised (.ldFVx 3) ∧
    decodeWord 0b1111001100110011#16 = .recognised (.ldBVx 3) ∧
    decodeWord 0b1111001101010101#16 = .recognised (.ldMemVx 3) ∧
    decodeWord 0b1111001101100101#16 = .recognised (.ldVxMem 3) := by decide

/-- T98 to T108: the words of R70 at the edges of the recognised ones. -/
theorem test_decode_unknown_words :
    ([0x0000#16, 0x01E0#16, 0x01EE#16, 0x00E1#16, 0x0FFF#16, 0x8128#16, 0x812D#16, 0x812F#16, 0xE19F#16, 0xF100#16, 0xF175#16].all
      fun op => decide (decodeWord op = .unknown op)) = true := by decide

/-- An instruction word, and its neighbour that is `Unknown`, numbered as the opcode table numbers them. -/
theorem test_decodeTableWord : decodeTableWord 16 0x8124 = some (.addVxVy 1 2) ∧ decodeTableWord 16 0x8128 = none := by decide

/-- The descriptor carries every field whatever the kind (R64). -/
theorem test_describe :
    describe 0x8128#16 =
      { op := 0x8128#16, kind := .unknown, x := 1, y := 2, nnn := 0x128#12, nn := 0x28#8, n := 8 } := by decide

theorem test_asm : Instr.asm (.drw 1 2 5) = "DRW V1, V2, 0x5" ∧ Instr.asm (.jpV0Nnn 0x3AB#12) = "JP V0, 0x3AB" ∧
    Instr.asm (.skp 15) = "SKP VF" := by decide +kernel

/-! ## One step, from the vectors -/

/-- The reset state with a word at `PC`. -/
def at200 (w : Nat) : State := State.reset.withFetchWord 16 w

/-- A state with some registers set. -/
def withRegs (s : State) : List (Reg × Byte) → State
  | [] => s
  | (x, b) :: l => withRegs (s.setReg x b) l

/-- A state with some bytes stored. -/
def withBytes (s : State) (a : Nat) (bs : List Byte) : State := s.setMem (s.mem.writeList a bs)

/-- A state with some cells set. -/
def withCells (s : State) : List (Nat × Nat) → State
  | [] => s
  | (x, y) :: l => withCells (s.setFb (Display.flip s.fb x y)) l

/-- The step's outcome and `PC` after it. -/
def outPc (s : State) : StepOutcome × Nat := (outcomeOf s, (afterStep s).pc.toNat)

/-- The step's outcome, `PC`, one register and `VF` after it. -/
def outReg (x : Reg) (s : State) : StepOutcome × Nat × Nat × Nat :=
  (outcomeOf s, (afterStep s).pc.toNat, ((afterStep s).reg x).toNat, ((afterStep s).reg regF).toNat)

/-- T1. -/
theorem test_jp : outPc (at200 0x1ABC) = (.ok, 0x0ABC) := by decide

/-- T12: the sum is not cut to 12 bits. -/
theorem test_jpV0Nnn : outPc (withRegs (at200 0xBFFF) [(0, 0xFF#8)]) = (.ok, 0x10FE) := by decide

/-- T4. -/
theorem test_call_pushes : outPc (at200 0x2300) = (.ok, 0x0300) ∧ (afterStep (at200 0x2300)).stack = [0x0202#16] := by decide

/-- T6: nothing is pushed at the limit. -/
theorem test_call_full :
    outPc ((at200 0x2300).setStack (List.replicate 16 0x0202#16)) = (.fault .stackOverflow, 0x0202) ∧
    (afterStep ((at200 0x2300).setStack (List.replicate 16 0x0202#16))).stack.length = 16 := by decide

/-- T9: the newest entry only. -/
theorem test_ret_pops :
    outPc ((at200 0x00EE).setStack [0x0ABC#16, 0x0204#16]) = (.ok, 0x0204) ∧
    (afterStep ((at200 0x00EE).setStack [0x0ABC#16, 0x0204#16])).stack = [0x0ABC#16] := by decide

/-- T10. -/
theorem test_ret_empty : outPc (at200 0x00EE) = (.fault .stackUnderflow, 0x0202) := by decide

/-- T14, T15. -/
theorem test_seVxNn :
    outPc (withRegs (at200 0x3A42) [(10, 0x42#8)]) = (.ok, 0x0204) ∧
    outPc (withRegs (at200 0x3A42) [(10, 0x43#8)]) = (.ok, 0x0202) := by decide

/-- T16, T17. -/
theorem test_sneVxNn :
    outPc (withRegs (at200 0x4A42) [(10, 0x42#8)]) = (.ok, 0x0202) ∧
    outPc (withRegs (at200 0x4A42) [(10, 0x43#8)]) = (.ok, 0x0204) := by decide

/-- T19, T20. -/
theorem test_seVxVy :
    outPc (withRegs (at200 0x5120) [(1, 0x07#8), (2, 0x08#8)]) = (.ok, 0x0202) ∧
    outPc (withRegs (at200 0x5337) [(3, 0x09#8)]) = (.ok, 0x0204) := by decide

/-- T21, T23. -/
theorem test_sneVxVy :
    outPc (withRegs (at200 0x9120) [(1, 0x07#8), (2, 0x08#8)]) = (.ok, 0x0204) ∧
    outPc (withRegs (at200 0x933F) [(3, 0x09#8)]) = (.ok, 0x0202) := by decide

/-- T26: `VF` is an ordinary destination. -/
theorem test_ldVxNn : outReg 15 (at200 0x6F55) = (.ok, 0x0202, 0x55, 0x55) := by decide

/-- T27: the sum wraps and `VF` is kept. -/
theorem test_addVxNn : outReg 0 (withRegs (at200 0x7001) [(0, 0xFF#8), (15, 0x55#8)]) = (.ok, 0x0202, 0x00, 0x55) := by decide

/-- T29. -/
theorem test_ldVxVy :
    outReg 1 (withRegs (at200 0x8120) [(1, 0x11#8), (2, 0x22#8), (15, 0x55#8)]) = (.ok, 0x0202, 0x22, 0x55) := by decide

/-- T30. -/
theorem test_orVxVy :
    outReg 1 (withRegs (at200 0x8121) [(1, 0x0F#8), (2, 0xF0#8), (15, 0x55#8)]) = (.ok, 0x0202, 0xFF, 0x55) := by decide

/-- T31. -/
theorem test_andVxVy :
    outReg 1 (withRegs (at200 0x8122) [(1, 0x3C#8), (2, 0x0F#8), (15, 0x55#8)]) = (.ok, 0x0202, 0x0C, 0x55) := by decide

/-- T32. -/
theorem test_xorVxVy :
    outReg 1 (withRegs (at200 0x8123) [(1, 0xFF#8), (2, 0x0F#8), (15, 0x55#8)]) = (.ok, 0x0202, 0xF0, 0x55) := by decide

/-- T35, T36: no carry at 255, carry at 256. -/
theorem test_addVxVy_carry :
    outReg 1 (withRegs (at200 0x8124) [(1, 0xF0#8), (2, 0x0F#8), (15, 0x01#8)]) = (.ok, 0x0202, 0xFF, 0x00) ∧
    outReg 1 (withRegs (at200 0x8124) [(1, 0xFF#8), (2, 0x01#8)]) = (.ok, 0x0202, 0x00, 0x01) := by decide

/-- T38, T39: `VF` as destination and as operand. -/
theorem test_addVxVy_flag_register :
    outReg 15 (withRegs (at200 0x8F14) [(15, 0xF0#8), (1, 0x20#8)]) = (.ok, 0x0202, 0x01, 0x01) ∧
    outReg 1 (withRegs (at200 0x81F4) [(1, 0x01#8), (15, 0x01#8)]) = (.ok, 0x0202, 0x02, 0x00) := by decide

/-- T41, T42: a borrow, and equal operands. -/
theorem test_subVxVy :
    outReg 1 (withRegs (at200 0x8125) [(1, 0x01#8), (2, 0x10#8), (15, 0x01#8)]) = (.ok, 0x0202, 0xF1, 0x00) ∧
    outReg 1 (withRegs (at200 0x8125) [(1, 0x33#8), (2, 0x33#8)]) = (.ok, 0x0202, 0x00, 0x01) := by decide

/-- T43, T44. -/
theorem test_subnVxVy :
    outReg 1 (withRegs (at200 0x8127) [(1, 0x01#8), (2, 0x10#8)]) = (.ok, 0x0202, 0x0F, 0x01) ∧
    outReg 1 (withRegs (at200 0x8127) [(1, 0x10#8), (2, 0x01#8), (15, 0x01#8)]) = (.ok, 0x0202, 0xF1, 0x00) := by decide

/-- T45: the source is `Vy`. -/
theorem test_shrVxVy : outReg 1 (withRegs (at200 0x8126) [(1, 0xAA#8), (2, 0x05#8)]) = (.ok, 0x0202, 0x02, 0x01) := by decide

/-- T48, second half: with `x` = F the flag replaces the result. -/
theorem test_shrVxVy_into_VF : outReg 15 (withRegs (at200 0x8F26) [(2, 0x02#8)]) = (.ok, 0x0202, 0x00, 0x00) := by decide

/-- T49, T50. -/
theorem test_shlVxVy :
    outReg 1 (withRegs (at200 0x812E) [(2, 0x81#8)]) = (.ok, 0x0202, 0x02, 0x01) ∧
    outReg 1 (withRegs (at200 0x812E) [(1, 0xFF#8), (2, 0x40#8), (15, 0x01#8)]) = (.ok, 0x0202, 0x80, 0x00) := by decide

/-- T51, T53: the draw is an argument of the shared operation. -/
theorem test_loadRandomMasked :
    (loadRandomMasked 0xA7#8 1 0x0F#8 State.reset).reg 1 = 0x07#8 ∧
    (loadRandomMasked 0x5A#8 1 0xFF#8 State.reset).reg 1 = 0x5A#8 := by decide

/-- T52: mask 0 gives 0 for every draw. -/
theorem test_rndVxNn_mask_0 : (afterStep (withRegs (at200 0xC100) [(1, 0x77#8)])).reg 1 = 0x00#8 :=
  (BitVec.and_zero : Config.randomByte 0 &&& 0x00#8 = 0x00#8)

/-- T54. -/
theorem test_cls :
    (afterStep (withCells (at200 0x00E0) [(0, 0), (63, 31)])).fb = Display.clear ∧
    outReg 15 (withRegs (withCells (at200 0x00E0) [(0, 0)]) [(15, 0x01#8)]) = (.ok, 0x0202, 0x01, 0x01) := by decide +kernel

/-- T55: the sprite wraps at the right edge. -/
def sprite55 : State := withBytes ((withRegs (at200 0xD121) [(1, 0x3F#8), (2, 0x1F#8)]).setI 0x0300#16) 0x300 [0xC0#8]

theorem test_drw_wraps :
    (afterStep sprite55).fb = (withCells State.reset [(63, 31), (0, 31)]).fb ∧ outReg 15 sprite55 = (.ok, 0x0202, 0x00, 0x00) := by
  decide +kernel

/-- T61: one cell set, one cleared. -/
def sprite61 : State := withCells (withBytes ((at200 0xD121).setI 0x0300#16) 0x300 [0xC0#8]) [(1, 0)]

theorem test_drw_collides :
    (afterStep sprite61).fb = (withCells State.reset [(0, 0)]).fb ∧ outReg 15 sprite61 = (.ok, 0x0202, 0x01, 0x01) := by
  decide +kernel

/-- T67, T70: the comparison is on all 8 bits. -/
theorem test_skp :
    outPc ((withRegs (at200 0xE19E) [(1, 0x05#8)]).setKey (some 5)) = (.ok, 0x0204) ∧
    outPc ((withRegs (at200 0xE19E) [(1, 0x15#8)]).setKey (some 5)) = (.ok, 0x0202) := by decide

/-- T71, T73. -/
theorem test_sknp :
    outPc ((withRegs (at200 0xE1A1) [(1, 0x05#8)]).setKey (some 5)) = (.ok, 0x0202) ∧
    outPc (withRegs (at200 0xE1A1) [(1, 0xFF#8)]) = (.ok, 0x0204) := by decide

/-- T74. -/
theorem test_ldVxDt : outReg 3 ((at200 0xF307).setDt 42#8) = (.ok, 0x0202, 0x2A, 0x00) := by decide

/-- T75. -/
theorem test_ldDtVx : (afterStep (withRegs (at200 0xF315) [(3, 0x3C#8)])).dt = 60#8 := by decide

/-- T76. -/
theorem test_ldStVx : (afterStep (withRegs (at200 0xF318) [(3, 0x01#8)])).st = 1#8 := by decide

/-- T77: nothing changes at all. -/
theorem test_ldVxK_waits : outcomeOf (at200 0xF40A) = .waiting ∧ afterStep (at200 0xF40A) = at200 0xF40A := by decide +kernel

/-- T79: the latch is not consumed. -/
theorem test_ldVxK_loads :
    outReg 4 ((withRegs (at200 0xF40A) [(4, 0x99#8)]).setKey (some 15)) = (.ok, 0x0202, 0x0F, 0x00) ∧
    (afterStep ((at200 0xF40A).setKey (some 15))).key = some 15 := by decide

/-- T80. -/
theorem test_ldINnn : (afterStep (at200 0xAFFF)).i = 0x0FFF#16 := by decide

/-- T82, T83: no cut to 12 bits, a wrap at 16, no flag. -/
theorem test_addIVx :
    (afterStep ((withRegs (at200 0xF21E) [(2, 0x01#8), (15, 0x55#8)]).setI 0x0FFF#16)).i = 0x1000#16 ∧
    (afterStep ((withRegs (at200 0xF21E) [(2, 0x01#8)]).setI 0xFFFF#16)).i = 0x0000#16 := by decide

/-- T85, T86. -/
theorem test_ldFVx :
    (afterStep (withRegs (at200 0xF029) [(0, 0x1A#8)])).i = 0x0082#16 ∧
    (afterStep (withRegs (at200 0xF029) [(0, 0x0F#8)])).i = 0x009B#16 := by decide

/-- T89: leading zeros are written. -/
theorem test_ldBVx :
    ((List.range 4).map fun k => (afterStep (withBytes ((withRegs (at200 0xF033) [(0, 0x07#8)]).setI 0x0300#16) 0x300
      [9#8, 9#8, 9#8, 9#8])).byteAt (0x300 + k)) = [0x00#8, 0x00#8, 0x07#8, 0x09#8] := by decide +kernel

/-- T91: nothing is written when the third byte is out of range. -/
theorem test_ldBVx_out_of_range :
    outPc ((withRegs (at200 0xF033) [(0, 0x07#8)]).setI 0x0FFE#16) = (.fault (.outOfRangeAddress 0x1000), 0x0202) := by decide

/-- T92: `V3` is not stored. -/
theorem test_ldMemVx :
    ((List.range 4).map fun k => (afterStep ((withRegs (at200 0xF255) [(0, 1#8), (1, 2#8), (2, 3#8), (3, 4#8)]).setI
      0x0400#16)).byteAt (0x400 + k)) = [1#8, 2#8, 3#8, 0#8] := by decide +kernel

/-- T94: the first byte is not written either. -/
theorem test_ldMemVx_out_of_range :
    outPc ((withRegs (at200 0xF155) [(0, 0xAB#8), (1, 0xCD#8)]).setI 0x0FFF#16) = (.fault (.outOfRangeAddress 0x1000), 0x0202) ∧
    (afterStep ((withRegs (at200 0xF155) [(0, 0xAB#8), (1, 0xCD#8)]).setI 0x0FFF#16)).byteAt 0xFFF = 0x00#8 := by decide

/-- T95: `V3` is kept. -/
theorem test_ldVxMem :
    ((List.range 4).map fun k => (afterStep (withBytes ((withRegs (at200 0xF265) [(3, 0x99#8)]).setI 0x0400#16) 0x400
      [0x11#8, 0x22#8, 0x33#8, 0x44#8])).reg (Fin.ofNat 16 k)) = [0x11#8, 0x22#8, 0x33#8, 0x99#8] := by decide +kernel

/-- T96. -/
theorem test_ldVxMem_out_of_range : outPc ((at200 0xFF65).setI 0x0FF1#16) = (.fault (.outOfRangeAddress 0x1000), 0x0202) := by decide

/-- T99, T100: the same state under both settings. -/
theorem test_unknown :
    outPc (at200 0x0123) = (.unknown 0x0123#16, 0x0202) ∧
    outPc ((at200 0x0123).setCfg { stackLimit := 16, strictUnknown := true, fontBase := 0x050 }) =
      (.fault (.unknownInstruction 0x0123#16), 0x0202) := by decide

/-- T109, T111: a fetch out of range changes nothing. -/
theorem test_fetch_out_of_range :
    outPc (State.reset.setPc 0x0FFF#16) = (.fault (.outOfRangeAddress 0x1000), 0x0FFF) ∧
    outPc (State.reset.setPc 0x10FE#16) = (.fault (.outOfRangeAddress 0x10FE), 0x10FE) := by decide

/-- T112, T113: the last address, and an odd one. -/
theorem test_fetch_edges :
    outReg 1 ((State.reset.setPc 0x0FFE#16).withFetchWord 16 0x6155) = (.ok, 0x1000, 0x55, 0x00) ∧
    outReg 1 ((State.reset.setPc 0x0201#16).withFetchWord 16 0x6155) = (.ok, 0x0203, 0x55, 0x00) := by decide

/-! ## Host events -/

/-- 95_test_vectors.md, host events: a tick floors at zero and leaves the other timer. -/
theorem test_tickDelay :
    (((State.reset.setDt 1#8).setSt 7#8).tickDelay.tickDelay.dt, ((State.reset.setDt 1#8).setSt 7#8).tickDelay.st) = (0#8, 7#8) := by decide

theorem test_tickSound : (State.reset.setSt 2#8).tickSound.st = 1#8 ∧ State.reset.stNonzero = false := by decide

/-- D36. -/
theorem test_keyOfByte : keyOfByte 0x0F#8 = some (some 15) ∧ keyOfByte 0xFF#8 = some none ∧ keyOfByte 0x10#8 = none := by decide

/-- 95_test_vectors.md, reset: program and font in place. -/
theorem test_resetMemory :
    ([0x04F, 0x050, 0x09F, 0x0A0, 0x200, 0x201].map fun a =>
      (resetMemory Config.default [0x12#8, 0x00#8] (0xF0#8 :: List.replicate 78 0x11#8 ++ [0x80#8])).read a) =
      [0x00#8, 0xF0#8, 0x80#8, 0x00#8, 0x12#8, 0x00#8] := by decide +kernel

/-! ## Witnesses for the statements with hypotheses -/

theorem witness_DecodeOfEncodeIsIdentity : Instr.wf (.drw 15 0 15) = true := by decide

theorem witness_EncodeOfDecodedIsCanonicalWord :
    decodeWord 0x8AB4#16 = .recognised (.addVxVy 10 11) ∧ topNibble 0x8AB4#16 ≠ 0x5#4 ∧ topNibble 0x8AB4#16 ≠ 0x9#4 ∧
    decodeWord 0x5ABF#16 = .recognised (.seVxVy 10 11) ∧ topNibble 0x5ABF#16 = 0x5#4 ∧
    decodeWord 0x9AB7#16 = .recognised (.sneVxVy 10 11) ∧ topNibble 0x9AB7#16 = 0x9#4 := by decide

theorem witness_DecodedKindIsTheMatchingTableRow :
    (∀ r ∈ opcodeTable, 0x8128#16 &&& r.mask ≠ r.pattern) ∧ (⟨.drawSprite, 0xD000#16, 0xF000#16⟩ : OpcodeRow) ∈ opcodeTable ∧
    0xD125#16 &&& 0xF000#16 = 0xD000#16 := by decide

theorem witness_StepRunsTheDecodedInstruction :
    (at200 0x1ABC).fetches (.jp 0xABC#12) ∧ ((State.reset.setPc 0x0FFE#16).withFetchWord 16 0x6155).fetches (.ldVxNn 1 0x55#8) := by decide

/-- The same word under `STRICT_UNKNOWN`, with the other parameters at their bounds. -/
def strict : State := (at200 0x0123).setCfg { stackLimit := 1, strictUnknown := true, fontBase := 432 }

theorem witness_UnknownWordIsReportedAndOnlyAdvances :
    ((at200 0x0123).fetchable ∧ decodeWord (at200 0x0123).wordAtPc = .unknown (at200 0x0123).wordAtPc ∧
      (at200 0x0123).cfg.strictUnknown = false) ∧
    (strict.fetchable ∧ decodeWord strict.wordAtPc = .unknown strict.wordAtPc ∧ strict.cfg.strictUnknown = true) := by decide

theorem witness_FetchAboveMemoryFaultsAndChangesNothing :
    ¬ (State.reset.setPc 0x0FFF#16).fetchable ∧ (State.reset.setPc 0x0FFE#16).fetchable := by decide

theorem witness_FaultLeavesOnlyTheFetchAdvance :
    (step (State.reset.setPc 0x0FFF#16) = .fault (.outOfRangeAddress 0x1000) ∧ ¬ (State.reset.setPc 0x0FFF#16).fetchable) ∧
    (step (at200 0x00EE) = .fault .stackUnderflow ∧ (at200 0x00EE).fetchable) :=
  ⟨⟨rfl, by decide⟩, rfl, by decide⟩

theorem witness_StackAndUnknownErrorsComeFromTheirCauseAlone :
    ((at200 0x00EE).fetches .ret ∧ (at200 0x00EE).stack = []) ∧
    (((at200 0x2300).setStack (List.replicate 16 0x0202#16)).fetches (.call 0x300#12) ∧
      ((at200 0x2300).setStack (List.replicate 16 0x0202#16)).stack.length = (at200 0x2300).cfg.stackLimit) := by decide

theorem witness_StepAnswersAsItsOutcomeSays :
    (∃ t, step (at200 0x1ABC) = .next t) ∧ step (at200 0x00EE) = .fault .stackUnderflow := ⟨⟨_, rfl⟩, rfl⟩

theorem witness_InstructionsFaultExactlyInTheirCase :
    exec .ret State.reset = .fault .stackUnderflow ∧
    exec (.ldMemVx 15) (State.reset.setI 0x0FF1#16) = .fault (.outOfRangeAddress 0x1000) ∧
    (State.reset.setI 0x0FF1#16).spanFaults 16 ∧ ¬ (State.reset.setI 0x0FF0#16).spanFaults 16 :=
  ⟨rfl, rfl, by unfold State.spanFaults; decide, by unfold State.spanFaults; decide⟩

theorem witness_CallPushesPostFetchCounterAndJumps :
    (State.reset.setStack (List.replicate 15 0x0202#16)).stack.length ≠ State.reset.cfg.stackLimit ∧
    ((at200 0x2300).setStack (List.replicate 16 0x0202#16)).stack.length = State.reset.cfg.stackLimit ∧
    ((at200 0x2300).setStack (List.replicate 16 0x0202#16)).fetches (.call 0x300#12) := by decide

theorem witness_ReturnPopsTheNewestEntryIntoPc :
    (State.reset.setStack [0x0204#16]).stack = [] ++ [0x0204#16] ∧ (at200 0x00EE).stack = [] ∧ (at200 0x00EE).fetches .ret := by decide

/-- E4: T4 then T8, the target at the last address an instruction fits. -/
def callRet : State := withBytes (at200 0x2FFE) 0xFFE [0x00#8, 0xEE#8]

theorem witness_CallThenReturnComesBackAfterTheCall :
    callRet.fetches (.call 0xFFE#12) ∧ callRet.stack.length ≠ callRet.cfg.stackLimit ∧ (0xFFE#12).toNat ≤ 0xFFE ∧
    decodeWord (wordOfBytes (callRet.byteAt 0xFFE) (callRet.byteAt (0xFFE + 1))) = .recognised .ret := by decide +kernel

theorem witness_skip_clauses :
    (State.reset.reg 3).toNat = (0x00#8).toNat ∧ (State.reset.reg 3).toNat ≠ (0xFF#8).toNat ∧
    ((State.reset.setReg 2 0x08#8).reg 1).toNat ≠ ((State.reset.setReg 2 0x08#8).reg 2).toNat := by decide

theorem witness_KeySkipsAreComplementsOnTheWholeByte :
    (∃ k : KeyCode, ((State.reset.setReg 1 0x0F#8).setKey (some 15)).key = some k ∧
      k.val = (((State.reset.setReg 1 0x0F#8).setKey (some 15)).reg 1).toNat) ∧
    (¬ ∃ k : KeyCode, ((State.reset.setReg 1 0x10#8).setKey (some 0)).key = some k ∧
      k.val = (((State.reset.setReg 1 0x10#8).setKey (some 0)).reg 1).toNat) ∧
    (¬ ∃ k : KeyCode, State.reset.key = some k ∧ k.val = (State.reset.reg 1).toNat) := by decide

theorem witness_flag_destination : (14 : Reg) ≠ regF ∧ (255 : Nat) < (0xFF#8).toNat + (0x01#8).toNat ∧
    ¬ (255 : Nat) < (0xF0#8).toNat + (0x0F#8).toNat := by decide

theorem witness_RandomByteIsMaskedWhateverItIs : (0x0F#8).getLsbD 7 = false ∧ (0x0F#8).getLsbD 3 = true := by decide

/-- T64 and T62: the last byte of memory, and no byte at all. -/
theorem witness_DrawTurnsOverTheCellsUnderTheSprite :
    ((1 : Nat) ≤ 15 ∧ ¬ (State.reset.setI 0x0FFF#16).spanFaults 1) ∧ ((0 : Nat) ≤ 15 ∧ ¬ (State.reset.setI 0xFFFF#16).spanFaults 0) ∧
    (State.reset.setI 0x0FFF#16).spanFaults 2 := by unfold State.spanFaults; decide

theorem witness_SpriteLandsOn : SpriteLandsOn 1 2 1 sprite55 63 31 ∧ SpriteLandsOn 1 2 1 sprite55 0 31 :=
  ⟨⟨0, 0, by decide +kernel⟩, ⟨0, 1, by decide +kernel⟩⟩

/-- A cell under the sprite goes out (T61), and no cell does (T55). -/
theorem witness_draw_collision :
    (Display.cell sprite61.fb 1 0 = true ∧ Display.cell (afterStep sprite61).fb 1 0 = false) ∧ sprite55.fb = Display.clear := by
  decide +kernel

/-- E5: T55 then T56. -/
theorem witness_DrawingTwiceRestoresTheDisplay :
    ∃ s t u : State, (1 : Nat) ≤ 15 ∧ exec (.drw 1 2 1) s = .next t ∧ u.fb = t.fb ∧ u.reg 1 = s.reg 1 ∧ u.reg 2 = s.reg 2 ∧ u.i = s.i ∧
      ∀ r : Nat, r < 1 → u.byteAt (u.effectiveAddress r) = s.byteAt (s.effectiveAddress r) :=
  ⟨sprite55, _, sprite55.setFb (afterStep sprite55).fb, by decide, rfl, by decide +kernel, rfl, rfl, rfl, fun _ _ => rfl⟩

theorem witness_WaitForKeyLoadsTheLatchedKey : (State.reset.setKey (some 15)).key = some 15 ∧ State.reset.key = none := by decide

theorem witness_WaitingLastsUntilAKeyIsLatched : (at200 0xF40A).fetches (.ldVxK 4) ∧ (at200 0xF40A).key = none := by decide

theorem witness_StoreBcdWritesThreeDigits :
    ¬ (State.reset.setI 0x0FFD#16).spanFaults 3 ∧ (State.reset.setI 0x0FFE#16).spanFaults 3 := by unfold State.spanFaults; decide

theorem witness_SaveRegistersWritesTheBlock :
    ¬ (State.reset.setI 0x0FF0#16).spanFaults ((15 : Reg).val + 1) ∧ ¬ (State.reset.setI 0x0FFF#16).spanFaults ((0 : Reg).val + 1) ∧
    (15 : Reg) ≤ 15 := by unfold State.spanFaults; decide

theorem witness_LoadRegistersReadsTheBlock :
    ¬ (State.reset.setI 0x0FFF#16).spanFaults ((0 : Reg).val + 1) ∧ (0 : Reg) ≤ 0 ∧ (0 : Reg) < 1 := by unfold State.spanFaults; decide

theorem witness_SaveThenLoadGivesTheRegistersBack :
    ∃ s t u : State, exec (.ldMemVx 2) s = .next t ∧ u.mem = t.mem ∧ u.i = s.i :=
  ⟨State.reset.setI 0x0400#16, _, _, rfl, rfl, rfl⟩

/-- P6: the block lies over the next instruction. -/
theorem witness_StoreIsSeenByTheNextFetch :
    ∃ s t : State, exec (.ldMemVx 1) s = .next t ∧ (0 : Reg) < 1 ∧ s.pc.toNat = s.effectiveAddress (0 : Reg).val :=
  ⟨State.reset.setI 0x0200#16, _, rfl, by decide, by decide⟩

theorem witness_MemoryAccessesObeyReadAndWrite :
    State.reset.memRead 0xFFF = .ok 0x00#8 ∧ State.reset.memRead 0x1000 = .error (.outOfRangeAddress 0x1000) := ⟨rfl, rfl⟩

theorem witness_InstructionsChangeOnlyTheirParts : ∃ t, exec (.ldVxNn 1 0x55#8) State.reset = .next t ∧ t.reg 1 ≠ State.reset.reg 1 :=
  ⟨_, rfl, by decide⟩

theorem witness_FlagIsWrittenOnlyByTheSixWriters :
    (∃ t, exec (.addVxVy 1 2) State.reset = .next t) ∧ Instr.writesFlag (.addVxVy 1 2) = true ∧
    Instr.destination 3 (.addVxVy 1 2) = false ∧ (∃ t, exec (.ldVxMem 3) State.reset = .next t) ∧
    Instr.destination 4 (.ldVxMem 3) = false := ⟨⟨_, rfl⟩, by decide, by decide, ⟨_, rfl⟩, by decide⟩

theorem witness_PcChangesOnlyByTransfersSkipsAndWait :
    (∃ t, exec (.jp 0xABC#12) State.reset = .next t ∧ t.pc ≠ State.reset.pc) ∧
    (∃ t, exec (.seVxNn 0 0x00#8) State.reset = .next t ∧ t.pc ≠ State.reset.pc) ∧
    (∃ t, exec (.ldVxK 0) State.reset = .next t ∧ t.pc ≠ State.reset.pc) :=
  ⟨⟨_, rfl, by decide⟩, ⟨_, rfl, by decide⟩, ⟨_, rfl, by decide⟩⟩

theorem witness_OnlyCallPushesAndOnlyRetPops :
    (∃ t, exec (.call 0xABC#12) State.reset = .next t ∧ t.stack ≠ State.reset.stack) ∧
    (∃ t, exec .ret (State.reset.setStack [0x0204#16]) = .next t ∧ t.stack ≠ [0x0204#16]) :=
  ⟨⟨_, rfl, by decide⟩, ⟨_, rfl, by decide⟩⟩

theorem witness_OnlyClearAndDrawChangeTheDisplay :
    (∃ t, step (withCells (at200 0x00E0) [(0, 0)]) = .next t ∧ t.fb ≠ (withCells (at200 0x00E0) [(0, 0)]).fb) :=
  ⟨_, rfl, by decide +kernel⟩

theorem witness_TimersChangeOnlyByTheirSetters :
    (∃ t, step (withRegs (at200 0xF315) [(3, 0x3C#8)]) = .next t ∧ t.dt ≠ State.reset.dt) ∧
    (∃ t, step (withRegs (at200 0xF318) [(3, 0x3C#8)]) = .next t ∧ t.st ≠ State.reset.st) :=
  ⟨⟨_, rfl, by decide⟩, ⟨_, rfl, by decide⟩⟩

theorem witness_NoStepWritesKeyOrConfiguration : ∃ t, step (at200 0xF40A) = .next t := ⟨_, rfl⟩

theorem witness_ResetStateMeetsTheInvariant_stack : ∀ a ∈ State.reset.stack, a.toNat ≤ 0x1000 := by
  intro a h
  cases h

theorem witness_StepKeepsTheInvariant : (at200 0x2300).Inv ∧ ∃ t, step (at200 0x2300) = .next t :=
  ⟨⟨by decide, by decide, by decide, by decide, witness_ResetStateMeetsTheInvariant_stack⟩, ⟨_, rfl⟩⟩

/-- A legal reset of each image at its boundary. -/
theorem witness_ResetLoadsFontAndProgram :
    1 ≤ ({ stackLimit := 1, strictUnknown := true, fontBase := 432 } : Config).stackLimit ∧ (List.replicate 3584 0x12#8).length ≤ 3584 ∧
    (List.replicate 80 0xF0#8).length = 80 :=
  ⟨by decide, Nat.le_of_eq List.length_replicate, List.length_replicate⟩

theorem witness_EveryStateReachedByEventsMeetsTheInvariant :
    ∃ t out, runEvents none [.reset Config.default [] (List.replicate 80 0x00#8), .step, .tickDelay, .setKey 0x0F#8, .readDisplay] =
      .ok (some t, out) := ⟨_, _, rfl⟩

theorem witness_IllegalResetsAndEarlyEventsAreRefused :
    ({ stackLimit := 0, strictUnknown := false, fontBase := 0 } : Config).stackLimit = 0 ∧
    3584 < (List.replicate 3585 0x12#8).length ∧ (List.replicate 79 0x00#8).length ≠ 80 ∧
    (∀ (c : Config) (rom font : List Byte), Event.step ≠ .reset c rom font) :=
  ⟨rfl, by rw [List.length_replicate]; decide, by rw [List.length_replicate]; decide, fun _ _ _ h => by cases h⟩

theorem witness_SetKeyReplacesTheLatch :
    (0x0F#8).toNat = (15 : KeyCode).val ∧ (0xFF#8).toNat = 0xFF ∧ (15 < (0x10#8).toNat ∧ (0x10#8).toNat ≠ 0xFF) := by decide

theorem witness_TraceCarriesPcWordAndKind :
    traceOf (at200 0x1ABC) = { pc := 0x0200#16, op := some 0x1ABC#16, kind := some .jump } ∧
    traceOf (State.reset.setPc 0x0FFF#16) = { pc := 0x0FFF#16, op := none, kind := none } := by decide

end Sys2Proof.Tests
end

section
/-! PROOFS. The single-byte accesses (20_memory.md R41, R42): the frame of a memory replacement, and the bytes after one write. -/

namespace Sys2Proof.Machine

/-- Replacing the memory leaves every other part of the state alone. -/
theorem State.setMem_changesOnly (s : State) (m : Memory) : ChangesOnly [.memory] s (s.setMem m) := by
  intro p hp
  cases p
  case memory => exact absurd (List.mem_singleton_self _) hp
  all_goals simp [SameIn]

theorem State.byteAt_setMem_write_same (s : State) (a : Nat) (b : Byte) :
    (s.setMem (s.mem.write a b)).byteAt a = b := by
  rw [State.setMem_byteAt_eq, Memory.read_write, if_pos rfl]

theorem State.byteAt_setMem_write_other (s : State) {a q : Nat} (b : Byte) (hq : q ≠ a) :
    (s.setMem (s.mem.write a b)).byteAt q = s.byteAt q := by
  rw [State.setMem_byteAt_eq, Memory.read_write, if_neg hq]; rfl

theorem State.setMem_write_keepsBytesOutside (s : State) (a : Nat) (b : Byte) :
    KeepsBytesOutside a 1 s (s.setMem (s.mem.write a b)) := by
  intro q hq
  exact s.byteAt_setMem_write_other b (by omega)

/-- Settles O43: on either side of the bound, the access laws give both outcomes; the state after a write in range is the
one with the memory's write, whose bytes and frame are the lemmas above. -/
theorem memoryAccessesObeyReadAndWrite : Obligations.MemoryAccessesObeyReadAndWrite := by
  intro s a b
  constructor
  · intro h
    have hIn : a < memSize := Nat.lt_succ_of_le h
    exact ⟨State.memRead_ok hIn, s.setMem (s.mem.write a b), State.memWrite_ok hIn, s.byteAt_setMem_write_same a b,
      s.setMem_write_keepsBytesOutside a b, s.setMem_changesOnly _⟩
  · intro h
    have hOut : ¬ a < memSize := Nat.not_lt_of_ge h
    exact ⟨State.memRead_error hOut, State.memWrite_error hOut⟩

end Sys2Proof.Machine
end

section
/-! PROOFS. Jumps, calls and returns (40_control_flow.md R100 to R102): what a fault leaves, the frames, and the answer of `exec` in
each case. -/

namespace Sys2Proof.Machine

/-! ## What a fault in execute leaves (60_exceptions.md R185) -/

/-- A step whose instruction faults on the post-fetch state leaves only the fetch advance. -/
theorem afterStep_of_exec_fault {s : State} {i : Instr} {e : Fault} (hi : s.fetches i) (he : exec i s.advance = .fault e) :
    afterStep s = s.advance := by
  obtain ⟨hf, hd⟩ := hi
  have hx : execDecoded (decodeWord s.wordAtPc) s.advance = .fault e := by rw [hd]; exact he
  rw [afterStep_of_fetchable hf, hx]
  rfl

/-! ## Frames -/

theorem State.setPc_changesOnly (s : State) (a : Word) : ChangesOnly [.pc] s (s.setPc a) := by
  intro p hp
  cases p
  case pc => exact absurd (List.mem_singleton_self _) hp
  all_goals simp [SameIn]

theorem State.setStack_setPc_changesOnly (s : State) (l : List Word) (a : Word) :
    ChangesOnly [.pc, .stack] s ((s.setStack l).setPc a) := by
  intro p hp
  cases p
  case pc => exact absurd List.mem_cons_self hp
  case stack => exact absurd (List.mem_cons_of_mem _ (List.mem_singleton_self _)) hp
  all_goals simp [SameIn]

/-! ## The answers of the three instructions -/

theorem exec_jp (nnn : Addr) (s : State) : exec (.jp nnn) s = .next (s.setPc (jumpTarget nnn)) := rfl

theorem exec_call_eq {s : State} (nnn : Addr) (h : s.stack.length ≠ s.cfg.stackLimit) :
    exec (.call nnn) s = .next ((s.setStack (s.stack ++ [s.pc])).setPc (jumpTarget nnn)) := by
  show execCall nnn s = _
  rw [execCall, State.push_eq s s.pc h, orRaise_ok]

theorem exec_call_full {s : State} (nnn : Addr) (h : s.stack.length = s.cfg.stackLimit) :
    exec (.call nnn) s = .fault .stackOverflow := by
  show execCall nnn s = _
  rw [execCall, State.push_full s s.pc h, orRaise_error]

theorem exec_ret_concat {s : State} {older : List Word} {a : Word} (h : s.stack = older ++ [a]) :
    exec .ret s = .next ((s.setStack older).setPc a) := by
  show execRet s = _
  rw [execRet, State.pop_concat h, orRaise_ok]

theorem exec_ret_empty {s : State} (h : s.stack = []) : exec .ret s = .fault .stackUnderflow := by
  show execRet s = _
  rw [execRet, State.pop_empty h, orRaise_error]

/-! ## The obligations -/

/-- Settles O13: the next state is the old one with `PC` replaced by the zero-extended address field. -/
theorem jumpSetsPcToTheAddress : Obligations.JumpSetsPcToTheAddress := by
  intro nnn s
  exact ⟨s.setPc (jumpTarget nnn), exec_jp nnn s, jumpTarget_toNat nnn, s.setPc_changesOnly _⟩

/-- Settles O15: below the limit the push succeeds and the jump follows; at the limit the push raises, and the fetch advance
changes neither the stack nor the limit, so the fetched call raises too. -/
theorem callPushesPostFetchCounterAndJumps : Obligations.CallPushesPostFetchCounterAndJumps := by
  intro nnn s
  constructor
  · intro hRoom
    exact ⟨(s.setStack (s.stack ++ [s.pc])).setPc (jumpTarget nnn), exec_call_eq nnn hRoom, rfl, jumpTarget_toNat nnn,
      s.setStack_setPc_changesOnly _ _⟩
  · intro hFull
    have hFullAfterFetch : s.advance.stack.length = s.advance.cfg.stackLimit := hFull
    exact ⟨exec_call_full nnn hFull, fun hFetches => afterStep_of_exec_fault hFetches (exec_call_full nnn hFullAfterFetch)⟩

/-- Settles O16: with a newest entry the pop gives it back; on an empty stack the pop raises, and the fetch advance leaves the
stack empty, so the fetched return raises too. -/
theorem returnPopsTheNewestEntryIntoPc : Obligations.ReturnPopsTheNewestEntryIntoPc := by
  intro s
  constructor
  · intro older a hStack
    exact ⟨(s.setStack older).setPc a, exec_ret_concat hStack, rfl, rfl, s.setStack_setPc_changesOnly older a⟩
  · intro hEmpty
    have hEmptyAfterFetch : s.advance.stack = [] := hEmpty
    exact ⟨exec_ret_empty hEmpty, fun hFetches => afterStep_of_exec_fault hFetches (exec_ret_empty hEmptyAfterFetch)⟩

end Sys2Proof.Machine
end

section
/-! PROOFS. The conditional skips (41_skip.md R110, R111): the skip on the counter, what a skip under a predicate does, and the
comparison of bytes as numbers. -/

namespace Sys2Proof.Machine

/-! ## The skip and its frame -/

theorem State.advance_pc_toNat (s : State) : s.advance.pc.toNat = (s.pc.toNat + 2) % 65536 :=
  BitVec.toNat_add s.pc 2#16

theorem State.advance_changesOnly (s : State) : ChangesOnly [.pc] s s.advance := s.setPc_changesOnly _

/-- All that a skip does, when its Boolean test decides `P`. -/
theorem skipWhen_next {p : Bool} {P : Prop} [Decidable P] (hp : p = true ↔ P) (s : State) :
    ∃ t : State, skipWhen p s = .next t ∧ ChangesOnly [.pc] s t ∧
      t.pc.toNat = if P then (s.pc.toNat + 2) % 65536 else s.pc.toNat := by
  by_cases h : P
  · have hTest : p = true := hp.mpr h
    refine ⟨s.advance, ?_, s.advance_changesOnly, ?_⟩
    · rw [skipWhen, if_pos hTest]
    · rw [if_pos h, s.advance_pc_toNat]
  · have hTest : ¬ p = true := mt hp.mp h
    refine ⟨s, ?_, ChangesOnly.refl _ s, ?_⟩
    · rw [skipWhen, if_neg hTest]
    · rw [if_neg h]

/-! ## The tests -/

theorem byte_beq_iff_toNat_eq (a b : Byte) : (a == b) = true ↔ a.toNat = b.toNat :=
  beq_iff_eq.trans BitVec.toNat_inj.symm

theorem byte_bne_iff_toNat_ne (a b : Byte) : (a != b) = true ↔ ¬ a.toNat = b.toNat :=
  bne_iff_ne.trans (not_congr BitVec.toNat_inj.symm)

/-! ## The answers of the two instructions -/

theorem exec_seVxNn (x : Reg) (nn : Byte) (s : State) : exec (.seVxNn x nn) s = skipWhen (s.reg x == nn) s := rfl

theorem exec_sneVxNn (x : Reg) (nn : Byte) (s : State) : exec (.sneVxNn x nn) s = skipWhen (s.reg x != nn) s := rfl

/-! ## The obligation -/

/-- Settles O18: each of the two is a skip whose test decides that the numbers are equal, or that they differ. -/
theorem immediateSkipsCompareRegisterWithByte : Obligations.ImmediateSkipsCompareRegisterWithByte := by
  intro x nn s
  constructor
  · rw [exec_seVxNn]
    exact skipWhen_next (byte_beq_iff_toNat_eq (s.reg x) nn) s
  · rw [exec_sneVxNn]
    have hSkip := skipWhen_next (byte_bne_iff_toNat_ne (s.reg x) nn) s
    simpa only [ite_not] using hSkip

end Sys2Proof.Machine
end

section
/-! PROOFS. Loads and sums of registers (42_load_alu.md R120, R121, R126): the register rules of one write and of a result
followed by its flag, their frames, and the answers of `exec`. -/

namespace Sys2Proof.Machine

/-! ## Frames compose -/

theorem SameIn.trans {p : Part} {s t u : State} (hst : SameIn p s t) (htu : SameIn p t u) : SameIn p s u := by
  cases p
  case regs => exact fun r => (htu r).trans (hst r)
  case memory => exact fun a => (htu a).trans (hst a)
  all_goals exact Eq.trans htu hst

theorem ChangesOnly.trans {parts : List Part} {s t u : State} (hst : ChangesOnly parts s t) (htu : ChangesOnly parts t u) :
    ChangesOnly parts s u :=
  fun p hp => (hst p hp).trans (htu p hp)

/-! ## One register write -/

theorem State.reg_setReg_same (s : State) (x : Reg) (b : Byte) : (s.setReg x b).reg x = b := by
  rw [State.reg_setReg, if_pos rfl]

theorem State.setReg_keepsRegsBut (s : State) (x : Reg) (b : Byte) : KeepsRegsBut x s (s.setReg x b) := by
  intro r hr
  rw [State.reg_setReg, if_neg hr]

theorem State.setReg_changesOnly (s : State) (x : Reg) (b : Byte) : ChangesOnly [.regs] s (s.setReg x b) := by
  intro p hp
  cases p
  case regs => exact absurd (List.mem_singleton_self _) hp
  all_goals simp [SameIn]

/-! ## A result, then its flag (10_state.md R12) -/

theorem State.resultThenFlag_reg_flag (s : State) (x : Reg) (a f : Byte) : (s.resultThenFlag x a f).reg regF = f := by
  rw [State.resultThenFlag_reg, if_pos rfl]

theorem State.resultThenFlag_reg_result (s : State) {x : Reg} (a f : Byte) (hx : x ≠ regF) :
    (s.resultThenFlag x a f).reg x = a := by
  rw [State.resultThenFlag_reg, if_neg hx, if_pos rfl]

theorem State.resultThenFlag_keepsRegsButFlag (s : State) (x : Reg) (a f : Byte) :
    KeepsRegsButFlag x s (s.resultThenFlag x a f) := by
  intro r hr hrF
  rw [State.resultThenFlag_reg, if_neg hrF, if_neg hr]

theorem State.resultThenFlag_changesOnly (s : State) (x : Reg) (a f : Byte) :
    ChangesOnly [.regs] s (s.resultThenFlag x a f) :=
  (s.setReg_changesOnly x a).trans ((s.setReg x a).setReg_changesOnly regF f)

theorem carryFlag_toNat (a b : Byte) : (carryFlag a b).toNat = if 255 < a.toNat + b.toNat then 1 else 0 := by
  rw [carryFlag, flagByte_toNat]
  simp only [decide_eq_true_eq]

/-! ## The answers of the three instructions -/

theorem exec_ldVxNn (x : Reg) (nn : Byte) (s : State) : exec (.ldVxNn x nn) s = .next (s.setReg x nn) := rfl

theorem exec_addVxNn (x : Reg) (nn : Byte) (s : State) : exec (.addVxNn x nn) s = .next (s.setReg x (s.reg x + nn)) := rfl

theorem exec_addVxVy (x y : Reg) (s : State) :
    exec (.addVxVy x y) s = .next (s.resultThenFlag x (s.reg x + s.reg y) (carryFlag (s.reg x) (s.reg y))) := rfl

/-! ## The obligations -/

/-- Settles O21: the next state is the old one with the byte written to the register. -/
theorem loadImmediateWritesTheByte : Obligations.LoadImmediateWritesTheByte := by
  intro x nn s
  exact ⟨s.setReg x nn, exec_ldVxNn x nn s, s.reg_setReg_same x nn, s.setReg_keepsRegsBut x nn, s.setReg_changesOnly x nn⟩

/-- Settles O23: the one register written takes the 8-bit sum, which is the sum modulo 256. -/
theorem addImmediateWrapsAndSetsNoFlag : Obligations.AddImmediateWrapsAndSetsNoFlag := by
  intro x nn s
  refine ⟨s.setReg x (s.reg x + nn), exec_addVxNn x nn s, ?_, s.setReg_keepsRegsBut x _, s.setReg_changesOnly x _⟩
  rw [State.reg_setReg_same]
  exact BitVec.toNat_add (s.reg x) nn

/-- Settles O25: `VF` reads the carry, the last write, and a destination other than `VF` still reads the 8-bit sum. -/
theorem addRegistersSetsSumThenCarry : Obligations.AddRegistersSetsSumThenCarry := by
  intro x y s
  refine ⟨_, exec_addVxVy x y s, ?carry, ?sum, s.resultThenFlag_keepsRegsButFlag x _ _, s.resultThenFlag_changesOnly x _ _⟩
  case carry =>
    rw [State.resultThenFlag_reg_flag]
    exact carryFlag_toNat (s.reg x) (s.reg y)
  case sum =>
    intro hx
    rw [State.resultThenFlag_reg_result _ _ _ hx]
    exact BitVec.toNat_add (s.reg x) (s.reg y)

end Sys2Proof.Machine
end

section
/-! PROOFS. Clearing the display (43_display.md R140): the frame of a display replacement and the answer of `CLS`. -/

namespace Sys2Proof.Machine

/-- Replacing the display leaves every other part of the state alone. -/
theorem State.setFb_changesOnly (s : State) (fb : Display) : ChangesOnly [.display] s (s.setFb fb) := by
  intro p hp
  cases p
  case display => exact absurd (List.mem_singleton_self _) hp
  all_goals simp [SameIn]

theorem exec_cls (s : State) : exec .cls s = .next (s.setFb Display.clear) := rfl

/-- Settles O29: the next state is the old one with the clear display, whose cells all read unset. -/
theorem clearUnsetsEveryCell : Obligations.ClearUnsetsEveryCell := by
  intro s
  refine ⟨s.setFb Display.clear, exec_cls s, ?cells, s.setFb_changesOnly Display.clear⟩
  case cells =>
    intro cx cy
    rw [State.setFb_fb]
    exact Display.cell_clear cx cy

end Sys2Proof.Machine
end

section
/-! PROOFS. The timer accesses (44_key_timer.md R152, R154, R155): the frames of a timer write and the answers of `exec`. -/

namespace Sys2Proof.Machine

/-! ## Timer writes and their frames -/

theorem State.setDt_changesOnly (s : State) (b : Byte) : ChangesOnly [.delay] s (s.setDt b) := by
  intro p hp
  cases p
  case delay => exact absurd (List.mem_singleton_self _) hp
  all_goals simp [SameIn]

theorem State.setSt_changesOnly (s : State) (b : Byte) : ChangesOnly [.sound] s (s.setSt b) := by
  intro p hp
  cases p
  case sound => exact absurd (List.mem_singleton_self _) hp
  all_goals simp [SameIn]

/-! ## The answers of the three instructions -/

theorem exec_ldVxDt (x : Reg) (s : State) : exec (.ldVxDt x) s = .next (s.setReg x s.dt) := rfl

theorem exec_ldDtVx (x : Reg) (s : State) : exec (.ldDtVx x) s = .next (s.setDt (s.reg x)) := rfl

theorem exec_ldStVx (x : Reg) (s : State) : exec (.ldStVx x) s = .next (s.setSt (s.reg x)) := rfl

/-! ## The obligation -/

/-- Settles O32: each of the three is one write of the copied byte, to a register or to a timer, with that write's frame. -/
theorem timerAccessesCopyTheWholeByte : Obligations.TimerAccessesCopyTheWholeByte := by
  intro x s
  refine ⟨?readDelay, ?writeDelay, ?writeSound⟩
  case readDelay =>
    exact ⟨s.setReg x s.dt, exec_ldVxDt x s, s.reg_setReg_same x s.dt, s.setReg_keepsRegsBut x s.dt, s.setReg_changesOnly x s.dt⟩
  case writeDelay =>
    exact ⟨s.setDt (s.reg x), exec_ldDtVx x s, s.setDt_dt (s.reg x), s.setDt_changesOnly (s.reg x)⟩
  case writeSound =>
    exact ⟨s.setSt (s.reg x), exec_ldStVx x s, s.setSt_st (s.reg x), s.setSt_changesOnly (s.reg x)⟩

end Sys2Proof.Machine
end

section
/-! PROOFS. The loads of the index register (45_index_memory.md R160, R162): the frame of an index write and the answers of `exec`. -/

namespace Sys2Proof.Machine

/-! ## The index write and its frame -/

/-- Replacing the index register leaves every other part of the state alone. -/
theorem State.setI_changesOnly (s : State) (a : Word) : ChangesOnly [.index] s (s.setI a) := by
  intro p hp
  cases p
  case index => exact absurd (List.mem_singleton_self _) hp
  all_goals simp [SameIn]

/-! ## The answers of the two loads -/

theorem exec_ldINnn (nnn : Addr) (s : State) : exec (.ldINnn nnn) s = .next (s.setI nnn.zext) := rfl

theorem exec_ldFVx (x : Reg) (s : State) : exec (.ldFVx x) s = .next (s.setI (s.glyphAddress (s.reg x))) := rfl

/-! ## The obligation -/

/-- Settles O36: each load is one index write; zero extension keeps the 12-bit address as a number, and the glyph address of
a byte is computed without overflow. -/
theorem indexLoadsSetTheAddress : Obligations.IndexLoadsSetTheAddress := by
  intro x nnn s
  refine ⟨⟨_, exec_ldINnn nnn s, ?address, s.setI_changesOnly _⟩, ⟨_, exec_ldFVx x s, ?glyph, s.setI_changesOnly _⟩⟩
  case address =>
    rw [State.setI_i]
    exact BitVec.toNat_setWidth_of_le (by decide)
  case glyph =>
    rw [State.setI_i]
    exact s.glyphAddress_toNat (s.reg x)

end Sys2Proof.Machine
end

section
/-! PROOFS. `Unknown` words (46_unknown.md R170): what executing one answers under each setting of `STRICT_UNKNOWN`, the outcome it
reports, and the state it leaves. -/

namespace Sys2Proof.Machine

/-! ## Executing an `Unknown` word -/

theorem execDecoded_unknown (op : Word) (s : State) : execDecoded (.unknown op) s = execUnknown op s := rfl

theorem execUnknown_lenient {s : State} (op : Word) (h : s.cfg.strictUnknown = false) : execUnknown op s = .next s := by
  rw [execUnknown, h]
  exact if_neg Bool.false_ne_true

theorem execUnknown_strict {s : State} (op : Word) (h : s.cfg.strictUnknown = true) :
    execUnknown op s = .fault (.unknownInstruction op) :=
  if_pos h

theorem stateOr_execUnknown (op : Word) (s : State) : stateOr (execUnknown op s) s = s := by
  cases h : s.cfg.strictUnknown
  case false =>
    rw [execUnknown_lenient op h]
    rfl
  case true =>
    rw [execUnknown_strict op h]
    rfl

theorem executeOutcome_unknown_lenient {s : State} (op : Word) (h : s.cfg.strictUnknown = false) :
    executeOutcome (.unknown op) s = .unknown op := by
  rw [executeOutcome, execDecoded_unknown, execUnknown_lenient op h]
  rfl

theorem executeOutcome_unknown_strict {s : State} (op : Word) (h : s.cfg.strictUnknown = true) :
    executeOutcome (.unknown op) s = .fault (.unknownInstruction op) := by
  rw [executeOutcome, execDecoded_unknown, execUnknown_strict op h]

/-! ## The obligation -/

/-- Settles O7: the step executes the word on the post-fetch state, which has the same `STRICT_UNKNOWN` setting; both answers leave
that state. -/
theorem unknownWordIsReportedAndOnlyAdvances : Obligations.UnknownWordIsReportedAndOnlyAdvances := by
  intro s hFetch hUnknown
  have hStep : step s = execUnknown s.wordAtPc s.advance := by
    rw [step_of_fetchable hFetch, hUnknown, execDecoded_unknown]
  have hOutcome : outcomeOf s = executeOutcome (.unknown s.wordAtPc) s.advance := by
    rw [outcomeOf_of_fetchable hFetch, hUnknown]
  have hAfter : afterStep s = s.advance := by
    rw [afterStep_of_fetchable hFetch, hUnknown, execDecoded_unknown, stateOr_execUnknown]
  refine ⟨?lenient, ?strict, hAfter, s.advance_pc_toNat, s.advance_changesOnly⟩
  case lenient =>
    intro hLenient
    have hLenientAfterFetch : s.advance.cfg.strictUnknown = false := hLenient
    exact ⟨hStep.trans (execUnknown_lenient _ hLenientAfterFetch),
      hOutcome.trans (executeOutcome_unknown_lenient _ hLenientAfterFetch)⟩
  case strict =>
    intro hStrict
    have hStrictAfterFetch : s.advance.cfg.strictUnknown = true := hStrict
    exact ⟨hStep.trans (execUnknown_strict _ hStrictAfterFetch),
      hOutcome.trans (executeOutcome_unknown_strict _ hStrictAfterFetch)⟩

end Sys2Proof.Machine
end

section
/-! PROOFS. Where the errors of a step come from (60_exceptions.md R182 to R184, 46_unknown.md R170): the error of each instruction, of an
`Unknown` word and of a fetch, and a faulting step as one of the three. -/

namespace Sys2Proof.Machine

/-! ## The error of an instruction -/

/-- An answer that faults with `e₀` under `P` and goes on otherwise has no other fault. -/
theorem fault_inversion {P : Prop} {r : Result} {e₀ e : Fault} (hGoesOn : ¬ P → ∃ t : State, r = .next t)
    (hFaults : P → r = .fault e₀) (h : r = .fault e) : P ∧ e = e₀ := by
  by_cases hP : P
  · have hSame : Host.Outcome.fault e = Host.Outcome.fault e₀ := h.symm.trans (hFaults hP)
    exact ⟨hP, Host.Outcome.fault.inj hSame⟩
  · obtain ⟨t, hNext⟩ := hGoesOn hP
    exact nomatch hNext.symm.trans h

theorem exec_ret_next_of_ne_nil {s : State} (h : s.stack ≠ []) : ∃ t : State, exec .ret s = .next t :=
  ⟨_, exec_ret_concat (List.dropLast_append_getLast h).symm⟩

theorem exec_ldVxK_ne_fault (x : Reg) (s : State) (e : Fault) : exec (.ldVxK x) s ≠ .fault e := by
  show execLdVxK x s ≠ .fault e
  unfold execLdVxK
  cases s.key <;> nofun

/-- An instruction faults only in its own case: on the stack for `RET` and `CALL`, on its addresses for the four with an access. -/
theorem raisesExactly_of_exec_fault {i : Instr} {s : State} {e : Fault} (h : exec i s = .fault e) : RaisesExactly i s e := by
  cases i
  case ret => exact fault_inversion exec_ret_next_of_ne_nil exec_ret_empty h
  case call nnn => exact fault_inversion (fun hRoom => ⟨_, exec_call_eq nnn hRoom⟩) (exec_call_full nnn) h
  case drw x y n => exact fault_inversion (fun hIn => ⟨_, execDrw_eq x y n s hIn⟩) (execDrw_fault x y n s) h
  case ldBVx x => exact fault_inversion (fun hIn => ⟨_, execLdBVx_eq x s hIn⟩) (execLdBVx_fault x s) h
  case ldMemVx x => exact fault_inversion (fun hIn => ⟨_, execLdMemVx_eq x s hIn⟩) (execLdMemVx_fault x s) h
  case ldVxMem x => exact fault_inversion (fun hIn => ⟨_, execLdVxMem_eq x s hIn⟩) (execLdVxMem_fault x s) h
  case ldVxK x => exact absurd h (exec_ldVxK_ne_fault x s e)
  all_goals exact nomatch h

theorem exec_stackUnderflow_iff (i : Instr) (s : State) :
    exec i s = .fault .stackUnderflow ↔ i = .ret ∧ s.stack = [] := by
  constructor
  · intro h
    have hCase := raisesExactly_of_exec_fault h
    cases i
    case ret => exact ⟨rfl, hCase.left⟩
    all_goals simp [RaisesExactly] at hCase
  · rintro ⟨rfl, hEmpty⟩
    exact exec_ret_empty hEmpty

theorem exec_stackOverflow_iff (i : Instr) (s : State) :
    exec i s = .fault .stackOverflow ↔ (∃ nnn : Addr, i = .call nnn) ∧ s.stack.length = s.cfg.stackLimit := by
  constructor
  · intro h
    have hCase := raisesExactly_of_exec_fault h
    cases i
    case call nnn => exact ⟨⟨nnn, rfl⟩, hCase.left⟩
    all_goals simp [RaisesExactly] at hCase
  · rintro ⟨⟨nnn, rfl⟩, hFull⟩
    exact exec_call_full nnn hFull

theorem exec_ne_unknownInstruction (i : Instr) (s : State) (op : Word) : exec i s ≠ .fault (.unknownInstruction op) := by
  intro h
  have hCase := raisesExactly_of_exec_fault h
  cases i <;> simp [RaisesExactly] at hCase

/-! ## The error of a step -/

theorem execUnknown_fault_iff (op : Word) (s : State) (e : Fault) :
    execUnknown op s = .fault e ↔ s.cfg.strictUnknown = true ∧ e = .unknownInstruction op := by
  constructor
  · intro h
    refine fault_inversion (fun hLenient => ⟨s, ?_⟩) (execUnknown_strict op) h
    exact execUnknown_lenient op (Bool.eq_false_of_not_eq_true hLenient)
  · rintro ⟨hStrict, rfl⟩
    exact execUnknown_strict op hStrict

/-- Everything a step that faults can be: a fetch out of range, a fetched instruction in its own error case, or an `Unknown` word
under `STRICT_UNKNOWN`. -/
theorem step_fault_iff (s : State) (e : Fault) :
    step s = .fault e ↔
      (¬ s.fetchable ∧ e = .outOfRangeAddress (max s.pc.toNat 0x1000)) ∨
      (∃ i : Instr, s.fetches i ∧ exec i s.advance = .fault e) ∨
      (s.fetchable ∧ decodeWord s.wordAtPc = .unknown s.wordAtPc ∧ s.cfg.strictUnknown = true ∧
        e = .unknownInstruction s.wordAtPc) := by
  by_cases hf : s.fetchable
  · rw [step_of_fetchable hf]
    cases hd : decodeWord s.wordAtPc with
    | recognised i =>
      have hOnly : ∀ j : Instr, s.fetches j ↔ i = j := by simp [State.fetches, hf, hd]
      simp [hf, hOnly, execDecoded]
    | unknown op =>
      have hNone : ∀ j : Instr, ¬ s.fetches j := fun j hj => nomatch hd.symm.trans hj.2
      obtain rfl := decodeWord_unknown hd
      simp [hf, hNone, execDecoded_unknown, execUnknown_fault_iff]
  · rw [step_of_not_fetchable hf]
    simp [State.fetches, hf, eq_comm (a := e)]

/-! ## The obligation -/

/-- Settles O10: of the three ways a step can fault only a fetched instruction raises a stack error, and then it is `RET` or `CALL` in
its case; only an `Unknown` word raises `UnknownInstruction`. The fetch advance changes neither the stack nor its limit. -/
theorem stackAndUnknownErrorsComeFromTheirCauseAlone : Obligations.StackAndUnknownErrorsComeFromTheirCauseAlone := by
  intro s
  refine ⟨?underflow, ?overflow, ?unknown⟩
  case underflow =>
    rw [step_fault_iff]
    constructor
    · rintro (⟨-, hAddr⟩ | ⟨i, hFetches, hExec⟩ | ⟨-, -, -, hUnknown⟩)
      · cases hAddr
      · obtain ⟨rfl, hEmpty⟩ := (exec_stackUnderflow_iff i s.advance).mp hExec
        exact ⟨hFetches, hEmpty⟩
      · cases hUnknown
    · rintro ⟨hFetches, hEmpty⟩
      exact .inr (.inl ⟨.ret, hFetches, exec_ret_empty hEmpty⟩)
  case overflow =>
    rw [step_fault_iff]
    constructor
    · rintro (⟨-, hAddr⟩ | ⟨i, hFetches, hExec⟩ | ⟨-, -, -, hUnknown⟩)
      · cases hAddr
      · obtain ⟨⟨nnn, rfl⟩, hFull⟩ := (exec_stackOverflow_iff i s.advance).mp hExec
        exact ⟨⟨nnn, hFetches⟩, hFull⟩
      · cases hUnknown
    · rintro ⟨⟨nnn, hFetches⟩, hFull⟩
      exact .inr (.inl ⟨.call nnn, hFetches, exec_call_full nnn hFull⟩)
  case unknown =>
    intro op
    rw [step_fault_iff]
    constructor
    · rintro (⟨-, hAddr⟩ | ⟨i, -, hExec⟩ | ⟨hFetch, hDecode, hStrict, hUnknown⟩)
      · cases hAddr
      · exact absurd hExec (exec_ne_unknownInstruction i s.advance op)
      · obtain rfl := Fault.unknownInstruction.inj hUnknown
        exact ⟨hFetch, rfl, hDecode, hStrict⟩
    · rintro ⟨hFetch, rfl, hDecode, hStrict⟩
      exact .inr (.inr ⟨hFetch, hDecode, hStrict, rfl⟩)

end Sys2Proof.Machine
end

section
/-! PROOFS. The decoder against the encoder and the opcode table (30_encoding.md R61 to R71): what the decoder answers under each top
nibble, the round trip of an instruction and of a word, and the words of no row. -/

namespace Sys2Proof

/-! ## The decoder under each top nibble (R65) -/

theorem decodeWord_top0 {op : Word} (h : topNibble op = 0x0#4) : decodeWord op = decode0 op := by simp [decodeWord, h]

theorem decodeWord_top8 {op : Word} (h : topNibble op = 0x8#4) : decodeWord op = decode8 op := by simp [decodeWord, h]

theorem decodeWord_topE {op : Word} (h : topNibble op = 0xE#4) : decodeWord op = decodeE op := by simp [decodeWord, h]

theorem decodeWord_topF {op : Word} (h : topNibble op = 0xF#4) : decodeWord op = decodeF op := by simp [decodeWord, h]

/-! ## The round trip of an instruction -/

/-- The decoder reads an instruction back from its canonical word. -/
theorem decodeWord_encode {i : Instr} (h : i.wf = true) : decodeWord (encode i) = .recognised i := by
  cases i
  case cls => decide
  case ret => decide
  case drw x y n =>
    have hFits : n < 16 := Nat.lt_succ_of_le (of_decide_eq_true h)
    simp [decodeWord, encode, Nat.mod_eq_of_lt hFits]
  all_goals simp [decodeWord, decode8, decodeE, decodeF, encode]

/-- Settles O1: the two bytes are the canonical word again, and the decoder reads the instruction back from it. -/
theorem decodeOfEncodeIsIdentity : Obligations.DecodeOfEncodeIsIdentity := by
  intro i rest hWf
  simp only [encodeBytes, List.cons_append, List.nil_append, decodeBytes]
  rw [wordOfBytes_highByte_lowByte, decodeWord_encode hWf]

/-! ## The round trip of a word -/

theorem formatA_of_top {op : Word} {d : BitVec 4} (h : topNibble op = d) : formatA d (fieldNnn op) = op :=
  h ▸ formatA_fields op

theorem formatXK_of_top {op : Word} {d : BitVec 4} (h : topNibble op = d) : formatXK d (fieldX op) (fieldNn op) = op :=
  h ▸ formatXK_fields op

theorem formatXK_of_topByte {op : Word} {d : BitVec 4} {k : Byte} (h : topNibble op = d) (hk : fieldNn op = k) :
    formatXK d (fieldX op) k = op :=
  hk ▸ formatXK_of_top h

theorem formatXYN_of_topLow {op : Word} {d n : BitVec 4} (h : topNibble op = d) (hn : nibbleN op = n) :
    formatXYN d (fieldX op) (fieldY op) n = op :=
  h ▸ hn ▸ formatXYN_fields op

/-- A field that a mask keeps whole reads the same in the word and in the masked word. -/
theorem extract_of_fits {op mask pattern : Word} {start len : Nat} (hMask : mask.extractLsb' start len = BitVec.allOnes len)
    (h : op &&& mask = pattern) : op.extractLsb' start len = pattern.extractLsb' start len := by
  rw [← h, BitVec.extractLsb'_and, hMask, BitVec.and_allOnes]

/-- With its low nibble cleared, a word is its other three fields (R71). -/
theorem formatXYN_low_zero {op : Word} {d : BitVec 4} (h : topNibble op = d) :
    formatXYN d (fieldX op) (fieldY op) 0x0#4 = op &&& 0xFFF0#16 := by
  have hTop : topNibble op = topNibble (op &&& 0xFFF0#16) := extract_of_fits rfl rfl
  have hX : fieldX op = fieldX (op &&& 0xFFF0#16) := congrArg regOfNibble (extract_of_fits rfl rfl)
  have hY : fieldY op = fieldY (op &&& 0xFFF0#16) := congrArg regOfNibble (extract_of_fits rfl rfl)
  have hN : nibbleN (op &&& 0xFFF0#16) = 0x0#4 := BitVec.extractLsb'_and.trans BitVec.and_zero
  rw [hX, hY]
  exact formatXYN_of_topLow (hTop.symm.trans h) hN

/-- A word whose instruction is well formed and has the word itself as its canonical one. -/
def IsCanonicalFor (op : Word) (i : Instr) : Prop := i.wf = true ∧ encode i = op

theorem decode0_canonical {op : Word} {i : Instr} (h : decode0 op = .recognised i) : IsCanonicalFor op i := by
  unfold decode0 at h
  split at h
  · next hCls => cases h; exact ⟨rfl, hCls.symm⟩
  · split at h
    · next hRet => cases h; exact ⟨rfl, hRet.symm⟩
    · cases h

theorem decode8_canonical {op : Word} {i : Instr} (hTop : topNibble op = 0x8#4) (h : decode8 op = .recognised i) :
    IsCanonicalFor op i := by
  unfold decode8 at h
  split at h <;> cases h
  all_goals next hLow => exact ⟨rfl, formatXYN_of_topLow hTop hLow⟩

theorem decodeE_canonical {op : Word} {i : Instr} (hTop : topNibble op = 0xE#4) (h : decodeE op = .recognised i) :
    IsCanonicalFor op i := by
  unfold decodeE at h
  split at h <;> cases h
  all_goals next hByte => exact ⟨rfl, formatXK_of_topByte hTop hByte⟩

theorem decodeF_canonical {op : Word} {i : Instr} (hTop : topNibble op = 0xF#4) (h : decodeF op = .recognised i) :
    IsCanonicalFor op i := by
  unfold decodeF at h
  split at h <;> cases h
  all_goals next hByte => exact ⟨rfl, formatXK_of_topByte hTop hByte⟩

theorem decodeD_canonical {op : Word} (hTop : topNibble op = 0xD#4) :
    IsCanonicalFor op (.drw (fieldX op) (fieldY op) (fieldN op)) := by
  have hFits : fieldN op ≤ 15 := Nat.le_of_lt_succ (nibbleN op).isLt
  refine ⟨decide_eq_true hFits, ?_⟩
  show formatXYN 0xD#4 (fieldX op) (fieldY op) (BitVec.ofNat 4 (nibbleN op).toNat) = op
  rw [BitVec.ofNat_toNat, BitVec.setWidth_eq]
  exact formatXYN_of_topLow hTop rfl

/-- Where the low nibble is not ignored, a recognised word is canonical. -/
theorem decodeWord_canonical {op : Word} {i : Instr} (h5 : topNibble op ≠ 0x5#4) (h9 : topNibble op ≠ 0x9#4)
    (h : decodeWord op = .recognised i) : IsCanonicalFor op i := by
  unfold decodeWord at h
  split at h
  case h_1 hTop => exact decode0_canonical h
  case h_6 hTop => exact absurd hTop h5
  case h_9 hTop => exact decode8_canonical hTop h
  case h_10 hTop => exact absurd hTop h9
  case h_14 hTop => cases h; exact decodeD_canonical hTop
  case h_15 hTop => exact decodeE_canonical hTop h
  case h_16 hTop => exact decodeF_canonical hTop h
  case h_2 hTop | h_3 hTop | h_11 hTop | h_12 hTop => cases h; exact ⟨rfl, formatA_of_top hTop⟩
  case h_4 hTop | h_5 hTop | h_7 hTop | h_8 hTop | h_13 hTop => cases h; exact ⟨rfl, formatXK_of_top hTop⟩
  case h_17 => cases h

theorem decodeWord_top5 {op : Word} (h : topNibble op = 0x5#4) :
    decodeWord op = .recognised (.seVxVy (fieldX op) (fieldY op)) := by simp [decodeWord, h]

theorem decodeWord_top9 {op : Word} (h : topNibble op = 0x9#4) :
    decodeWord op = .recognised (.sneVxVy (fieldX op) (fieldY op)) := by simp [decodeWord, h]

/-- Settles O2: under 5 and 9 the instruction is a register skip, whose canonical word has low nibble 0; under every other top
nibble the word is put together again from the fields that the instruction holds. -/
theorem encodeOfDecodedIsCanonicalWord : Obligations.EncodeOfDecodedIsCanonicalWord := by
  intro op i h
  by_cases h5 : topNibble op = 0x5#4
  · obtain rfl := Decoded.recognised.inj ((decodeWord_top5 h5).symm.trans h)
    exact ⟨rfl, fun hOther => absurd h5 hOther.left, fun _ => formatXYN_low_zero h5⟩
  · by_cases h9 : topNibble op = 0x9#4
    · obtain rfl := Decoded.recognised.inj ((decodeWord_top9 h9).symm.trans h)
      exact ⟨rfl, fun hOther => absurd h9 hOther.right, fun _ => formatXYN_low_zero h9⟩
    · obtain ⟨hWf, hWord⟩ := decodeWord_canonical h5 h9 h
      exact ⟨hWf, fun _ => hWord, fun hSkip => (hSkip.elim h5 h9).elim⟩

/-! ## The opcode table (R66) -/

theorem rowFits (i : Instr) : Laws.RowFits.Statement i := by
  cases i
  case cls => exact Laws.RowFits.cls
  case ret => exact Laws.RowFits.ret
  case jp => exact Laws.RowFits.jp _
  case call => exact Laws.RowFits.call _
  case seVxNn => exact Laws.RowFits.seVxNn _ _
  case sneVxNn => exact Laws.RowFits.sneVxNn _ _
  case seVxVy => exact Laws.RowFits.seVxVy _ _
  case ldVxNn => exact Laws.RowFits.ldVxNn _ _
  case addVxNn => exact Laws.RowFits.addVxNn _ _
  case ldVxVy => exact Laws.RowFits.ldVxVy _ _
  case orVxVy => exact Laws.RowFits.orVxVy _ _
  case andVxVy => exact Laws.RowFits.andVxVy _ _
  case xorVxVy => exact Laws.RowFits.xorVxVy _ _
  case addVxVy => exact Laws.RowFits.addVxVy _ _
  case subVxVy => exact Laws.RowFits.subVxVy _ _
  case shrVxVy => exact Laws.RowFits.shrVxVy _ _
  case subnVxVy => exact Laws.RowFits.subnVxVy _ _
  case shlVxVy => exact Laws.RowFits.shlVxVy _ _
  case sneVxVy => exact Laws.RowFits.sneVxVy _ _
  case ldINnn => exact Laws.RowFits.ldINnn _
  case jpV0Nnn => exact Laws.RowFits.jpV0Nnn _
  case rndVxNn => exact Laws.RowFits.rndVxNn _ _
  case drw => exact Laws.RowFits.drw _ _ _
  case skp => exact Laws.RowFits.skp _
  case sknp => exact Laws.RowFits.sknp _
  case ldVxDt => exact Laws.RowFits.ldVxDt _
  case ldVxK => exact Laws.RowFits.ldVxK _
  case ldDtVx => exact Laws.RowFits.ldDtVx _
  case ldStVx => exact Laws.RowFits.ldStVx _
  case addIVx => exact Laws.RowFits.addIVx _
  case ldFVx => exact Laws.RowFits.ldFVx _
  case ldBVx => exact Laws.RowFits.ldBVx _
  case ldMemVx => exact Laws.RowFits.ldMemVx _
  case ldVxMem => exact Laws.RowFits.ldVxMem _

/-- A recognised word fits a row of the kind of its instruction. -/
theorem exists_row_of_recognised {op : Word} {i : Instr} (h : decodeWord op = .recognised i) :
    ∃ r ∈ opcodeTable, r.kind = i.kind ∧ op &&& r.mask = r.pattern := by
  by_cases h5 : topNibble op = 0x5#4
  · obtain rfl := Decoded.recognised.inj ((decodeWord_top5 h5).symm.trans h)
    exact ⟨⟨.skipIfRegistersEqual, 0x5000#16, 0xF000#16⟩, by decide, rfl, (fits_top op 0x5#4).mpr h5⟩
  · by_cases h9 : topNibble op = 0x9#4
    · obtain rfl := Decoded.recognised.inj ((decodeWord_top9 h9).symm.trans h)
      exact ⟨⟨.skipIfRegistersNotEqual, 0x9000#16, 0xF000#16⟩, by decide, rfl, (fits_top op 0x9#4).mpr h9⟩
    · obtain ⟨-, hWord⟩ := decodeWord_canonical h5 h9 h
      exact hWord ▸ rowFits i

/-! ### The kind of a word that fits a row

The kind depends on the top nibble, and under 8, E and F on the selector; these are the fields that the masks of the table keep. -/

theorem decodeWord_kind_congr_top {a b : Word} (hTop : topNibble a = topNibble b)
    (hPlain : topNibble b ∉ [0x0#4, 0x8#4, 0xE#4, 0xF#4]) : (decodeWord a).kind = (decodeWord b).kind := by
  unfold decodeWord
  rw [hTop]
  split
  case h_1 h | h_9 h | h_15 h | h_16 h => rw [h] at hPlain; exact absurd hPlain (by decide)
  all_goals rfl

theorem decodeWord_kind_congr_topLow {a b : Word} (ha : topNibble a = 0x8#4) (hb : topNibble b = 0x8#4)
    (hLow : nibbleN a = nibbleN b) : (decodeWord a).kind = (decodeWord b).kind := by
  rw [decodeWord_top8 ha, decodeWord_top8 hb]
  unfold decode8
  rw [hLow]
  split <;> rfl

theorem decodeWord_kind_congr_topByte {a b : Word} (hTop : topNibble a = topNibble b)
    (hb : topNibble b = 0xE#4 ∨ topNibble b = 0xF#4) (hByte : fieldNn a = fieldNn b) :
    (decodeWord a).kind = (decodeWord b).kind := by
  rcases hb with hb | hb
  · rw [decodeWord_topE (hTop.trans hb), decodeWord_topE hb]
    unfold decodeE
    rw [hByte]
    split <;> rfl
  · rw [decodeWord_topF (hTop.trans hb), decodeWord_topF hb]
    unfold decodeF
    rw [hByte]
    split <;> rfl

/-- Every row has one of four masks: the whole word, or the top nibble and the selector that its family has. -/
theorem opcodeTable_masks : ∀ r ∈ opcodeTable,
    r.mask = 0xFFFF#16 ∨
    (r.mask = 0xF000#16 ∧ topNibble r.pattern ∉ [0x0#4, 0x8#4, 0xE#4, 0xF#4]) ∨
    (r.mask = 0xF00F#16 ∧ topNibble r.pattern = 0x8#4) ∨
    (r.mask = 0xF0FF#16 ∧ (topNibble r.pattern = 0xE#4 ∨ topNibble r.pattern = 0xF#4)) := by
  decide

theorem opcodeTable_pattern_kind : ∀ r ∈ opcodeTable, (decodeWord r.pattern).kind = r.kind := by decide

theorem opcodeTable_kind_injective : ∀ r ∈ opcodeTable, ∀ q ∈ opcodeTable, r.kind = q.kind → r = q := by decide

theorem opcodeTable_kind_ne_unknown : ∀ r ∈ opcodeTable, r.kind ≠ .unknown := by decide

theorem kind_of_fits {r : OpcodeRow} (hr : r ∈ opcodeTable) {op : Word} (hFits : op &&& r.mask = r.pattern) :
    (decodeWord op).kind = r.kind := by
  rw [← opcodeTable_pattern_kind r hr]
  rcases opcodeTable_masks r hr with hMask | ⟨hMask, hPlain⟩ | ⟨hMask, h8⟩ | ⟨hMask, hEF⟩ <;> rw [hMask] at hFits
  case inl =>
    have hWord : op = r.pattern := BitVec.and_allOnes.symm.trans hFits
    rw [hWord]
  case inr.inl =>
    have hTop : topNibble op = topNibble r.pattern := extract_of_fits rfl hFits
    exact decodeWord_kind_congr_top hTop hPlain
  case inr.inr.inl =>
    have hTop : topNibble op = topNibble r.pattern := extract_of_fits rfl hFits
    have hLow : nibbleN op = nibbleN r.pattern := extract_of_fits rfl hFits
    exact decodeWord_kind_congr_topLow (hTop.trans h8) h8 hLow
  case inr.inr.inr =>
    have hTop : topNibble op = topNibble r.pattern := extract_of_fits rfl hFits
    have hByte : fieldNn op = fieldNn r.pattern := extract_of_fits rfl hFits
    exact decodeWord_kind_congr_topByte hTop hEF hByte

theorem fits_of_kind {r : OpcodeRow} (hr : r ∈ opcodeTable) {op : Word} (hKind : (decodeWord op).kind = r.kind) :
    op &&& r.mask = r.pattern := by
  cases hd : decodeWord op with
  | recognised i =>
    obtain ⟨q, hq, hqKind, hqFits⟩ := exists_row_of_recognised hd
    have hSame : r.kind = q.kind := by rw [← hKind, hd, hqKind]; rfl
    rw [opcodeTable_kind_injective r hr q hq hSame]
    exact hqFits
  | unknown w =>
    rw [hd] at hKind
    exact absurd hKind.symm (opcodeTable_kind_ne_unknown r hr)

/-- Settles O3: fitting a row gives its kind, since the masks keep the fields that the kind depends on; and a recognised word fits the
row of its kind, which is the only row of that kind. So a word of no row is not recognised. -/
theorem decodedKindIsTheMatchingTableRow : Obligations.DecodedKindIsTheMatchingTableRow := by
  refine ⟨rfl, fun op => ⟨fun r hr => ⟨kind_of_fits hr, fits_of_kind hr⟩, ?_, ?_⟩⟩
  · intro hNone
    cases hd : decodeWord op with
    | recognised i =>
      obtain ⟨r, hr, -, hFits⟩ := exists_row_of_recognised hd
      exact absurd hFits (hNone r hr)
    | unknown w => rw [decodeWord_unknown hd]
  · intro hUnknown r hr hFits
    have hKind := kind_of_fits hr hFits
    rw [hUnknown] at hKind
    exact opcodeTable_kind_ne_unknown r hr hKind.symm

/-! ## The `Unknown` words (R70) -/

theorem decode0_unknown_iff (op : Word) : decode0 op = .unknown op ↔ op ≠ 0x00E0#16 ∧ op ≠ 0x00EE#16 := by
  unfold decode0
  split
  · next hCls => simp [hCls]
  · next hCls =>
    split
    · next hRet => simp [hRet]
    · next hRet => simp [hCls, hRet]

theorem decode8_unknown_iff (op : Word) :
    decode8 op = .unknown op ↔ (nibbleN op).toNat ∈ [0x8, 0x9, 0xA, 0xB, 0xC, 0xD, 0xF] := by
  unfold decode8
  generalize nibbleN op = n
  split
  case h_10 h0 h1 h2 h3 h4 h5 h6 h7 hE =>
    have hn := n.isLt
    simp only [BitVec.toNat_eq, BitVec.reduceToNat, imp_false] at h0 h1 h2 h3 h4 h5 h6 h7 hE
    simp only [List.mem_cons, List.not_mem_nil, or_false, true_iff]
    omega
  all_goals simp

theorem decodeE_unknown_iff (op : Word) : decodeE op = .unknown op ↔ (fieldNn op).toNat ∉ [0x9E, 0xA1] := by
  unfold decodeE
  split
  case h_3 h9E hA1 =>
    simp only [BitVec.toNat_eq, BitVec.reduceToNat, imp_false] at h9E hA1
    simp only [List.mem_cons, List.not_mem_nil, or_false, true_iff]
    omega
  all_goals next h => simp [h]

theorem decodeF_unknown_iff (op : Word) :
    decodeF op = .unknown op ↔ (fieldNn op).toNat ∉ [0x07, 0x0A, 0x15, 0x18, 0x1E, 0x29, 0x33, 0x55, 0x65] := by
  unfold decodeF
  split
  case h_10 h07 h0A h15 h18 h1E h29 h33 h55 h65 =>
    simp only [BitVec.toNat_eq, BitVec.reduceToNat, imp_false] at h07 h0A h15 h18 h1E h29 h33 h55 h65
    simp only [List.mem_cons, List.not_mem_nil, or_false, true_iff]
    omega
  all_goals next h => simp [h]

/-- A word is `Unknown` in one of four families, those whose top nibble leaves a choice to the selector. -/
theorem decodeWord_unknown_iff (op : Word) :
    decodeWord op = .unknown op ↔
      (topNibble op = 0x0#4 ∧ decode0 op = .unknown op) ∨ (topNibble op = 0x8#4 ∧ decode8 op = .unknown op) ∨
      (topNibble op = 0xE#4 ∧ decodeE op = .unknown op) ∨ (topNibble op = 0xF#4 ∧ decodeF op = .unknown op) := by
  unfold decodeWord
  split
  case h_17 h0 h1 h2 h3 h4 h5 h6 h7 h8 h9 hA hB hC hD hE hF =>
    have hBound := (topNibble op).isLt
    simp only [BitVec.toNat_eq, BitVec.reduceToNat, imp_false] at h0 h1 h2 h3 h4 h5 h6 h7 h8 h9 hA hB hC hD hE hF
    omega
  all_goals next hTop => simp [hTop]

/-- Settles O4: the four families, each with the selectors that its own decoder does not know, written as numbers. -/
theorem unknownWordsAreExactlyTheListed : Obligations.UnknownWordsAreExactlyTheListed := by
  intro op
  have hTop : ∀ d : BitVec 4, topNibble op = d ↔ op.toNat / 0x1000 = d.toNat := by
    intro d
    rw [← topNibble_toNat, BitVec.toNat_inj]
  rw [decodeWord_unknown_iff, decode0_unknown_iff, decode8_unknown_iff, decodeE_unknown_iff, decodeF_unknown_iff]
  rw [nibbleN_toNat, fieldNn_toNat, hTop, hTop, hTop, hTop, BitVec.toNat_ne, BitVec.toNat_ne]
  have hBelow : op.toNat / 0x1000 = (0x0#4).toNat ↔ op.toNat < 0x1000 := by
    rw [BitVec.toNat_ofNat]; omega
  rw [hBelow]
  rfl

/-- Settles O5: the decoder evaluates on the eight words. -/
theorem sampleWordsDecodeAsTheTableSays : Obligations.SampleWordsDecodeAsTheTableSays := by
  unfold Obligations.SampleWordsDecodeAsTheTableSays
  decide

end Sys2Proof
end

section
/-! PROOFS. The remaining instructions that answer on every state (40_control_flow.md R103, 41_skip.md R112 and R113, 42_load_alu.md,
44_key_timer.md R150 to R153, 45_index_memory.md R161): their answers, the flags of the subtractions and shifts, and the key test. -/

namespace Sys2Proof.Machine

/-! ## Frames -/

theorem ChangesOnly.mono {parts more : List Part} {s t : State} (hSub : parts ⊆ more) (h : ChangesOnly parts s t) :
    ChangesOnly more s t :=
  fun p hp => h p (mt (@hSub p) hp)

theorem State.countDraw_changesOnly (s : State) : ChangesOnly [.draws] s s.countDraw := by
  intro p hp
  cases p
  case draws => exact absurd (List.mem_singleton_self _) hp
  all_goals simp [SameIn]

theorem State.countDraw_setReg_changesOnly (s : State) (x : Reg) (b : Byte) :
    ChangesOnly [.regs, .draws] s (s.countDraw.setReg x b) := by
  have hCount : ChangesOnly [.regs, .draws] s s.countDraw := s.countDraw_changesOnly.mono (by decide)
  exact hCount.trans ((s.countDraw.setReg_changesOnly x b).mono (by decide))

theorem State.retreat_changesOnly (s : State) : ChangesOnly [.pc] s s.retreat := s.setPc_changesOnly _

/-! ## The answers -/

theorem exec_jpV0Nnn (nnn : Addr) (s : State) : exec (.jpV0Nnn nnn) s = .next (s.setPc (s.jumpTargetV0 nnn)) := rfl

theorem exec_seVxVy (x y : Reg) (s : State) : exec (.seVxVy x y) s = skipWhen (s.reg x == s.reg y) s := rfl

theorem exec_sneVxVy (x y : Reg) (s : State) : exec (.sneVxVy x y) s = skipWhen (s.reg x != s.reg y) s := rfl

theorem exec_skp (x : Reg) (s : State) : exec (.skp x) s = skipWhen (s.keyPressed (s.reg x)) s := rfl

theorem exec_sknp (x : Reg) (s : State) : exec (.sknp x) s = skipWhen (!s.keyPressed (s.reg x)) s := rfl

theorem exec_ldVxVy (x y : Reg) (s : State) : exec (.ldVxVy x y) s = .next (s.setReg x (s.reg y)) := rfl

theorem exec_orVxVy (x y : Reg) (s : State) : exec (.orVxVy x y) s = .next (s.setReg x (s.reg x ||| s.reg y)) := rfl

theorem exec_andVxVy (x y : Reg) (s : State) : exec (.andVxVy x y) s = .next (s.setReg x (s.reg x &&& s.reg y)) := rfl

theorem exec_xorVxVy (x y : Reg) (s : State) : exec (.xorVxVy x y) s = .next (s.setReg x (s.reg x ^^^ s.reg y)) := rfl

theorem exec_subVxVy (x y : Reg) (s : State) :
    exec (.subVxVy x y) s = .next (s.resultThenFlag x (s.reg x - s.reg y) (notBorrowFlag (s.reg x) (s.reg y))) := rfl

theorem exec_subnVxVy (x y : Reg) (s : State) :
    exec (.subnVxVy x y) s = .next (s.resultThenFlag x (s.reg y - s.reg x) (notBorrowFlag (s.reg y) (s.reg x))) := rfl

theorem exec_shrVxVy (x y : Reg) (s : State) :
    exec (.shrVxVy x y) s = .next (s.resultThenFlag x (s.reg y >>> 1) (shiftedOutRight (s.reg y))) := rfl

theorem exec_shlVxVy (x y : Reg) (s : State) :
    exec (.shlVxVy x y) s = .next (s.resultThenFlag x (s.reg y <<< 1) (shiftedOutLeft (s.reg y))) := rfl

theorem exec_rndVxNn (x : Reg) (nn : Byte) (s : State) :
    exec (.rndVxNn x nn) s = .next (s.countDraw.setReg x (Config.randomByte s.draws &&& nn)) := rfl

theorem exec_ldVxK_none {s : State} (x : Reg) (h : s.key = none) : exec (.ldVxK x) s = .next s.retreat := by
  show execLdVxK x s = _
  rw [execLdVxK, h]

theorem exec_ldVxK_some {s : State} {k : KeyCode} (x : Reg) (h : s.key = some k) :
    exec (.ldVxK x) s = .next (s.setReg x (keyByte k)) := by
  show execLdVxK x s = _
  rw [execLdVxK, h]

theorem exec_addIVx (x : Reg) (s : State) : exec (.addIVx x) s = .next (s.setI (s.i + (s.reg x).zext)) := rfl

/-! ## Jump and skips -/

/-- Settles O14: the 16-bit sum of the address and `V0` does not wrap. -/
theorem jumpPlusV0SetsPcToTheSum : Obligations.JumpPlusV0SetsPcToTheSum := by
  intro nnn s
  exact ⟨s.setPc (s.jumpTargetV0 nnn), exec_jpV0Nnn nnn s, s.jumpTargetV0_toNat nnn, s.setPc_changesOnly _⟩

/-- Settles O19: each of the two is a skip whose test decides that the numbers are equal, or that they differ. -/
theorem registerSkipsCompareTwoRegisters : Obligations.RegisterSkipsCompareTwoRegisters := by
  intro x y s
  constructor
  · rw [exec_seVxVy]
    exact skipWhen_next (byte_beq_iff_toNat_eq (s.reg x) (s.reg y)) s
  · rw [exec_sneVxVy]
    have hSkip := skipWhen_next (byte_bne_iff_toNat_ne (s.reg x) (s.reg y)) s
    simpa only [ite_not] using hSkip

theorem State.keyPressed_iff (s : State) (b : Byte) :
    s.keyPressed b = true ↔ ∃ k : KeyCode, s.key = some k ∧ k.val = b.toNat := by
  unfold State.keyPressed
  cases s.key <;> simp

/-- A skip whose test decides `P`, with the counter given in each of the two cases. -/
theorem skipWhen_cases {p : Bool} {P : Prop} (hp : p = true ↔ P) (s : State) :
    ∃ t : State, skipWhen p s = .next t ∧ ChangesOnly [.pc] s t ∧
      (P → t.pc.toNat = (s.pc.toNat + 2) % 65536) ∧ (¬ P → t.pc = s.pc) := by
  have : Decidable P := decidable_of_iff _ hp
  obtain ⟨t, hNext, hFrame, hPc⟩ := skipWhen_next hp s
  refine ⟨t, hNext, hFrame, fun h => ?_, fun h => ?_⟩
  · rw [hPc, if_pos h]
  · rw [if_neg h] at hPc
    exact BitVec.eq_of_toNat_eq hPc

/-- Settles O20: both are skips on the one key test, `SKNP` on its negation. -/
theorem keySkipsAreComplementsOnTheWholeByte : Obligations.KeySkipsAreComplementsOnTheWholeByte := by
  intro x s
  have hPressed := s.keyPressed_iff (s.reg x)
  constructor
  · rw [exec_skp]
    exact skipWhen_cases hPressed s
  · rw [exec_sknp]
    have hNot : (!s.keyPressed (s.reg x)) = true ↔ ¬ ∃ k : KeyCode, s.key = some k ∧ k.val = (s.reg x).toNat := by
      rw [← hPressed, Bool.not_eq_true', Bool.not_eq_true]
    obtain ⟨t, hNext, hFrame, hUp, hKept⟩ := skipWhen_cases hNot s
    exact ⟨t, hNext, hFrame, fun h => hKept (not_not_intro h), hUp⟩

/-! ## Loads and logic -/

/-- Settles O22: the next state is the old one with the source's byte written to the destination. -/
theorem assignCopiesTheSourceRegister : Obligations.AssignCopiesTheSourceRegister := by
  intro x y s
  exact ⟨_, exec_ldVxVy x y s, s.reg_setReg_same x _, s.setReg_keepsRegsBut x _, s.setReg_changesOnly x _⟩

/-- Settles O24: each form is one register write, of the operands' bitwise combination. -/
theorem logicFormsWorkBitByBit : Obligations.LogicFormsWorkBitByBit := by
  intro x y s
  refine ⟨⟨_, exec_orVxVy x y s, s.setReg_keepsRegsBut x _, s.setReg_changesOnly x _, ?or⟩,
    ⟨_, exec_andVxVy x y s, s.setReg_keepsRegsBut x _, s.setReg_changesOnly x _, ?and⟩,
    ⟨_, exec_xorVxVy x y s, s.setReg_keepsRegsBut x _, s.setReg_changesOnly x _, ?xor⟩⟩
  all_goals
    intro k
    rw [State.reg_setReg_same]
  case or => exact BitVec.getLsbD_or
  case and => exact BitVec.getLsbD_and
  case xor => exact BitVec.getLsbD_xor

/-- Settles O28: the write goes to the register after the draw is counted; a bit outside the mask is unset by the conjunction,
whatever the byte. -/
theorem randomByteIsMaskedWhateverItIs : Obligations.RandomByteIsMaskedWhateverItIs := by
  intro x nn s
  refine ⟨⟨_, exec_rndVxNn x nn s, State.reg_setReg_same _ x _, rfl, State.setReg_keepsRegsBut s.countDraw x _,
    s.countDraw_setReg_changesOnly x _⟩, ?mask⟩
  case mask =>
    intro rnd k hk
    rw [loadRandomMasked, State.reg_setReg_same, BitVec.getLsbD_and, hk, Bool.and_false]

/-! ## Subtractions and shifts -/

theorem notBorrowFlag_toNat (a b : Byte) : (notBorrowFlag a b).toNat = if b.toNat ≤ a.toNat then 1 else 0 := by
  rw [notBorrowFlag, flagByte_toNat]
  simp only [decide_eq_true_eq]

/-- The subtrahend brings a difference modulo 256 back to the minuend. -/
theorem byte_sub_add_toNat (a b : Byte) : ((a - b).toNat + b.toNat) % 256 = a.toNat := by
  have ha := a.isLt
  have hb := b.isLt
  rw [BitVec.toNat_sub]
  omega

/-- Settles O26: `VF` reads the complement of the borrow, the last write, and a destination other than `VF` still reads the
difference. -/
theorem subtractionsSetDifferenceThenNotBorrow : Obligations.SubtractionsSetDifferenceThenNotBorrow := by
  intro x y s
  refine ⟨⟨_, exec_subVxVy x y s, ?subFlag, ?sub, s.resultThenFlag_keepsRegsButFlag x _ _, s.resultThenFlag_changesOnly x _ _⟩,
    ⟨_, exec_subnVxVy x y s, ?subnFlag, ?subn, s.resultThenFlag_keepsRegsButFlag x _ _, s.resultThenFlag_changesOnly x _ _⟩⟩
  case subFlag =>
    rw [State.resultThenFlag_reg_flag]
    exact notBorrowFlag_toNat (s.reg x) (s.reg y)
  case subnFlag =>
    rw [State.resultThenFlag_reg_flag]
    exact notBorrowFlag_toNat (s.reg y) (s.reg x)
  case sub =>
    intro hx
    rw [State.resultThenFlag_reg_result _ _ _ hx]
    exact byte_sub_add_toNat (s.reg x) (s.reg y)
  case subn =>
    intro hx
    rw [State.resultThenFlag_reg_result _ _ _ hx]
    exact byte_sub_add_toNat (s.reg y) (s.reg x)

theorem shiftedOutRight_toNat (b : Byte) : (shiftedOutRight b).toNat = b.toNat % 2 := by
  rw [shiftedOutRight, flagByte_toNat, BitVec.getLsbD, Nat.testBit_zero]
  simp only [decide_eq_true_eq]
  split <;> omega

theorem shiftedOutLeft_toNat (b : Byte) : (shiftedOutLeft b).toNat = b.toNat / 128 := by
  have hb := b.isLt
  rw [shiftedOutLeft, flagByte_toNat, BitVec.getLsbD, Nat.testBit_eq_decide_div_mod_eq]
  simp only [decide_eq_true_eq]
  split <;> omega

theorem byte_shiftRight_one_toNat (b : Byte) : (b >>> 1).toNat = b.toNat / 2 := by
  rw [BitVec.toNat_ushiftRight, Nat.shiftRight_one]

theorem byte_shiftLeft_one_toNat (b : Byte) : (b <<< 1).toNat = 2 * b.toNat % 256 := by
  rw [BitVec.toNat_shiftLeft, Nat.shiftLeft_eq, Nat.mul_comm]

/-- Settles O27: `VF` reads the bit that the shift moves out, the last write, and a destination other than `VF` still reads the
shifted byte. -/
theorem shiftsMoveVyByOneThenSetTheLostBit : Obligations.ShiftsMoveVyByOneThenSetTheLostBit := by
  intro x y s
  refine ⟨⟨_, exec_shrVxVy x y s, ?shrFlag, ?shr, s.resultThenFlag_keepsRegsButFlag x _ _, s.resultThenFlag_changesOnly x _ _⟩,
    ⟨_, exec_shlVxVy x y s, ?shlFlag, ?shl, s.resultThenFlag_keepsRegsButFlag x _ _, s.resultThenFlag_changesOnly x _ _⟩⟩
  case shrFlag =>
    rw [State.resultThenFlag_reg_flag]
    exact shiftedOutRight_toNat (s.reg y)
  case shlFlag =>
    rw [State.resultThenFlag_reg_flag]
    exact shiftedOutLeft_toNat (s.reg y)
  case shr =>
    intro hx
    rw [State.resultThenFlag_reg_result _ _ _ hx]
    exact byte_shiftRight_one_toNat (s.reg y)
  case shl =>
    intro hx
    rw [State.resultThenFlag_reg_result _ _ _ hx]
    exact byte_shiftLeft_one_toNat (s.reg y)

/-! ## The wait for a key and the sum with the index -/

theorem keyByte_toNat (k : KeyCode) : (keyByte k).toNat = k.val := by
  have hk := k.isLt
  rw [keyByte, BitVec.toNat_ofNat]
  omega

theorem State.retreat_pc_toNat (s : State) : s.retreat.pc.toNat = (s.pc.toNat + 65534) % 65536 := by
  rw [State.retreat_pc, BitVec.toNat_sub, Nat.add_comm]
  rfl

/-- Settles O33: with a key latched the wait is one register write, with none it takes the fetch advance back. -/
theorem waitForKeyLoadsTheLatchedKey : Obligations.WaitForKeyLoadsTheLatchedKey := by
  intro x s
  constructor
  · intro k hKey
    refine ⟨_, exec_ldVxK_some x hKey, ?_, s.setReg_keepsRegsBut x _, s.setReg_changesOnly x _⟩
    rw [State.reg_setReg_same, keyByte_toNat]
  · intro hNone
    exact ⟨_, exec_ldVxK_none x hNone, s.retreat_pc_toNat, s.retreat_changesOnly⟩

/-- Settles O37: the next state is the old one with the 16-bit sum in `I`. -/
theorem addToIndexWrapsAtSixteenBits : Obligations.AddToIndexWrapsAtSixteenBits := by
  intro x s
  refine ⟨_, exec_addIVx x s, ?_, s.setI_changesOnly _⟩
  rw [State.setI_i, BitVec.toNat_add, BitVec.toNat_setWidth_of_le (by decide)]

end Sys2Proof.Machine
end

section
/-! PROOFS. A step, its outcome and its trace (10_state.md R33, R34, 60_exceptions.md R185, R188, R195, R201): what a step answers, what it
reports, the call and its return, and the wait. -/

namespace Sys2Proof.Machine

/-! ## The answer of a step -/

theorem step_of_fetches {s : State} {i : Instr} (h : s.fetches i) : step s = exec i s.advance := by
  obtain ⟨hFetch, hDecode⟩ := h
  rw [step_of_fetchable hFetch, hDecode]
  rfl

/-- Settles O6: the fetched word decodes to the instruction, which is executed after the fetch advance. -/
theorem stepRunsTheDecodedInstruction : Obligations.StepRunsTheDecodedInstruction :=
  fun s _ h => ⟨step_of_fetches h, s.advance_pc_toNat, s.advance_changesOnly⟩

/-- Settles O8: the fetch itself faults, so neither the advance nor anything else happens. -/
theorem fetchAboveMemoryFaultsAndChangesNothing : Obligations.FetchAboveMemoryFaultsAndChangesNothing :=
  fun _ h => ⟨step_of_not_fetchable h, afterStep_of_not_fetchable h⟩

/-- Settles O9: an instruction faults only in its own case, and in that case its access or its stack operation raises the error. -/
theorem instructionsFaultExactlyInTheirCase : Obligations.InstructionsFaultExactlyInTheirCase := by
  intro i s e
  refine ⟨raisesExactly_of_exec_fault, fun h => ?_⟩
  cases i
  case ret => obtain ⟨hEmpty, rfl⟩ := h; exact exec_ret_empty hEmpty
  case call nnn => obtain ⟨hFull, rfl⟩ := h; exact exec_call_full nnn hFull
  case drw x y n => obtain ⟨hOut, rfl⟩ := h; exact execDrw_fault x y n s hOut
  case ldBVx x => obtain ⟨hOut, rfl⟩ := h; exact execLdBVx_fault x s hOut
  case ldMemVx x => obtain ⟨hOut, rfl⟩ := h; exact execLdMemVx_fault x s hOut
  case ldVxMem x => obtain ⟨hOut, rfl⟩ := h; exact execLdVxMem_fault x s hOut
  all_goals exact False.elim h

/-- Settles O11: a fault in fetch comes before the advance; a fault in execute leaves the state that execute was entered with. -/
theorem faultLeavesOnlyTheFetchAdvance : Obligations.FaultLeavesOnlyTheFetchAdvance := by
  intro s e hFault
  refine ⟨afterStep_of_not_fetchable, fun hFetch => ?_⟩
  have hAfter : afterStep s = s.advance := by
    rw [step_of_fetchable hFetch] at hFault
    rw [afterStep_of_fetchable hFetch, hFault]
    rfl
  rw [hAfter]
  exact ⟨s.advance_pc_toNat, s.advance_changesOnly⟩

/-! ## The answer and the outcome (R33) -/

theorem orRaise_ne_refused {α : Type} {r : Except Fault α} {f : α → State} {q : Refusal} :
    orRaise r (fun a => .next (f a)) ≠ .refused q := by
  cases r <;> nofun

theorem skipWhen_ne_refused {p : Bool} {s : State} {q : Refusal} : skipWhen p s ≠ .refused q := nofun

theorem exec_ne_refused (i : Instr) (s : State) (q : Refusal) : exec i s ≠ .refused q := by
  cases i
  case ret | call | drw | ldBVx | ldMemVx | ldVxMem => exact orRaise_ne_refused
  case ldVxK x =>
    cases hKey : s.key with
    | none => rw [exec_ldVxK_none x hKey]; nofun
    | some k => rw [exec_ldVxK_some x hKey]; nofun
  all_goals nofun

theorem execDecoded_ne_refused (d : Decoded) (s : State) (q : Refusal) : execDecoded d s ≠ .refused q := by
  cases d with
  | recognised i => exact exec_ne_refused i s q
  | unknown op =>
    rw [execDecoded_unknown]
    cases hStrict : s.cfg.strictUnknown
    case false => rw [execUnknown_lenient op hStrict]; nofun
    case true => rw [execUnknown_strict op hStrict]; nofun

theorem executeOutcome_of_next {d : Decoded} {s t : State} (h : execDecoded d s = .next t) :
    executeOutcome d s = goodOutcome d s := by
  rw [executeOutcome, h]

theorem executeOutcome_of_fault {d : Decoded} {s : State} {e : Fault} (h : execDecoded d s = .fault e) :
    executeOutcome d s = .fault e := by
  rw [executeOutcome, h]

theorem goodOutcome_ne_fault (d : Decoded) (s : State) (e : Fault) : goodOutcome d s ≠ .fault e := by
  unfold goodOutcome
  split
  · nofun
  · split <;> nofun
  · nofun

/-- Everything a step can be for the host: a next state, which is the state after the step, reported as no fault; or a fault,
reported as that fault. -/
theorem step_cases (s : State) :
    (step s = .next (afterStep s) ∧ ∀ e : Fault, outcomeOf s ≠ .fault e) ∨
      ∃ e : Fault, step s = .fault e ∧ outcomeOf s = .fault e := by
  by_cases hFetch : s.fetchable
  · rw [step_of_fetchable hFetch, outcomeOf_of_fetchable hFetch, afterStep_of_fetchable hFetch]
    cases hExec : execDecoded (decodeWord s.wordAtPc) s.advance with
    | next t =>
      rw [executeOutcome_of_next hExec]
      exact .inl ⟨rfl, goodOutcome_ne_fault _ _⟩
    | fault e => exact .inr ⟨e, rfl, executeOutcome_of_fault hExec⟩
    | refused q => exact absurd hExec (execDecoded_ne_refused _ _ q)
  · exact .inr ⟨_, step_of_not_fetchable hFetch, outcomeOf_of_not_fetchable hFetch⟩

/-- Settles O12: in each of the two cases of a step, answer, outcome and state after it agree. -/
theorem stepAnswersAsItsOutcomeSays : Obligations.StepAnswersAsItsOutcomeSays := by
  intro s
  rcases step_cases s with ⟨hNext, hGood⟩ | ⟨e, hFault, hOutcome⟩
  · rw [hNext]
    exact ⟨fun e => ⟨nofun, fun h => absurd h (hGood e)⟩, ⟨fun _ => hGood, fun _ => ⟨_, rfl⟩⟩,
      fun t h => Host.Outcome.next.inj h, nofun⟩
  · rw [hFault, hOutcome]
    refine ⟨fun f => ?_, ⟨nofun, fun h => absurd rfl (h e)⟩, nofun, nofun⟩
    rw [Host.Outcome.fault.injEq, StepOutcome.fault.injEq]

/-! ## The trace (R201) -/

/-- Settles O60: the record is read off the fetch, which gives the word at `PC` or fails. -/
theorem traceCarriesPcWordAndKind : Obligations.TraceCarriesPcWordAndKind := by
  intro s
  unfold traceOf
  by_cases hFetch : s.fetchable
  · rw [State.fetch_of_fetchable hFetch]
    exact ⟨rfl, fun _ => ⟨rfl, rfl⟩, fun h => absurd hFetch h⟩
  · rw [State.fetch_of_not_fetchable hFetch]
    exact ⟨rfl, fun h => absurd h hFetch, fun _ => ⟨rfl, rfl⟩⟩

/-! ## A call and its return -/

theorem State.advance_pc_toNat_of_fetchable {s : State} (h : s.fetchable) : s.advance.pc.toNat = s.pc.toNat + 2 := by
  have hLow : s.pc.toNat ≤ 0xFFE := h
  rw [s.advance_pc_toNat]
  omega

/-- The state in which a call that has room leaves the machine. -/
def State.enterCall (s : State) (nnn : Addr) : State := (s.setStack (s.stack ++ [s.pc])).setPc (jumpTarget nnn)

/-- Settles O17: the call pushes the post-fetch counter and goes to its target; the return found there, with the memory unchanged,
takes that entry off again, which leaves the state after the fetch advance. -/
theorem callThenReturnComesBackAfterTheCall : Obligations.CallThenReturnComesBackAfterTheCall := by
  intro s nnn hCall hRoom hTarget hRet
  have hFirst : step s = .next (s.advance.enterCall nnn) := (step_of_fetches hCall).trans (exec_call_eq nnn hRoom)
  have hPc : (s.advance.enterCall nnn).pc.toNat = nnn.toNat := jumpTarget_toNat nnn
  have hFetches : (s.advance.enterCall nnn).fetches .ret := by
    refine ⟨hPc.le.trans hTarget, ?_⟩
    unfold State.wordAtPc
    rw [hPc]
    exact hRet
  have hStack : (s.advance.enterCall nnn).advance.stack = s.stack ++ [s.advance.pc] := rfl
  have hSecond : step (s.advance.enterCall nnn) = .next s.advance :=
    (step_of_fetches hFetches).trans (exec_ret_concat hStack)
  refine ⟨s.advance, ?run, State.advance_pc_toNat_of_fetchable hCall.1, s.advance_changesOnly⟩
  case run => rw [core_run_next 1 hFirst, core_run_next 0 hSecond, core_run_zero]

/-! ## The wait for a key (R195) -/

theorem goodOutcome_waiting_iff (d : Decoded) (s : State) :
    goodOutcome d s = .waiting ↔ (∃ x : Reg, d = .recognised (.ldVxK x)) ∧ s.key = none := by
  cases d with
  | unknown op => simp [goodOutcome]
  | recognised i =>
    cases i
    case ldVxK x => by_cases hKey : s.key = none <;> simp [goodOutcome, hKey]
    all_goals simp [goodOutcome]

theorem State.advance_retreat (s : State) : s.advance.retreat = s := by
  have hPc : s.pc + 2#16 - 2#16 = s.pc := BitVec.add_sub_cancel s.pc 2#16
  show { s with pc := s.pc + 2#16 - 2#16 } = s
  rw [hPc]

theorem step_of_waiting {s : State} {x : Reg} (h : s.fetches (.ldVxK x)) (hKey : s.key = none) : step s = .next s := by
  have hKeyAfterFetch : s.advance.key = none := hKey
  rw [step_of_fetches h, exec_ldVxK_none x hKeyAfterFetch, s.advance_retreat]

theorem executeOutcome_waiting_iff (d : Decoded) (s : State) :
    executeOutcome d s = .waiting ↔ (∃ x : Reg, d = .recognised (.ldVxK x)) ∧ s.key = none := by
  cases hExec : execDecoded d s with
  | next t => rw [executeOutcome_of_next hExec, goodOutcome_waiting_iff]
  | fault e =>
    rw [executeOutcome_of_fault hExec]
    refine ⟨nofun, ?_⟩
    rintro ⟨⟨x, rfl⟩, -⟩
    exact absurd hExec (exec_ldVxK_ne_fault x s e)
  | refused q => exact absurd hExec (execDecoded_ne_refused d s q)

/-- Settles O35: the outcome is reported by what was decoded and the latch, and the step that reports it does not fault. -/
theorem onlyWaitForKeyWaits : Obligations.OnlyWaitForKeyWaits := by
  intro s
  by_cases hFetch : s.fetchable
  · rw [outcomeOf_of_fetchable hFetch, executeOutcome_waiting_iff]
    exact ⟨fun ⟨⟨x, hx⟩, hKey⟩ => ⟨⟨x, hFetch, hx⟩, hKey⟩, fun ⟨⟨x, _, hx⟩, hKey⟩ => ⟨⟨x, hx⟩, hKey⟩⟩
  · rw [outcomeOf_of_not_fetchable hFetch]
    exact ⟨nofun, fun ⟨⟨_, h, _⟩, _⟩ => absurd h hFetch⟩

theorem outcomeOf_latched {s : State} {x : Reg} {c : KeyCode} (h : s.fetches (.ldVxK x)) (hKey : s.key = some c) :
    outcomeOf s = .ok := by
  have hKeyAfterFetch : s.advance.key = some c := hKey
  have hExec : execDecoded (.recognised (.ldVxK x)) s.advance = .next _ := exec_ldVxK_some x hKeyAfterFetch
  obtain ⟨hFetch, hDecode⟩ := h
  rw [outcomeOf_of_fetchable hFetch, hDecode, executeOutcome_of_next hExec]
  simp [goodOutcome, hKey]

theorem run_of_step_self {s : State} (h : step s = .next s) (k : Nat) : Host.Core.run Sys2Proof.core k s = .next s := by
  induction k with
  | zero => exact core_run_zero s
  | succ k ih => exact (core_run_next k h).trans ih

/-- Settles O34: without a key the step gives the same state, and so does any number of them; latching a key leaves the fetched
instruction as it is, which then completes. -/
theorem waitingLastsUntilAKeyIsLatched : Obligations.WaitingLastsUntilAKeyIsLatched := by
  intro s x hFetches hKey
  refine ⟨(onlyWaitForKeyWaits s).mpr ⟨⟨x, hFetches⟩, hKey⟩, run_of_step_self (step_of_waiting hFetches hKey), fun c => ?_⟩
  have hLatched : (s.setKey (some c)).fetches (.ldVxK x) := hFetches
  have hStep : step (s.setKey (some c)) = .next ((s.setKey (some c)).advance.setReg x (keyByte c)) :=
    (step_of_fetches hLatched).trans (exec_ldVxK_some x rfl)
  refine ⟨_, hStep, outcomeOf_latched hLatched rfl, State.advance_pc_toNat_of_fetchable hLatched.1, ?_, rfl⟩
  rw [State.reg_setReg_same, keyByte_toNat]

end Sys2Proof.Machine
end

section
/-! PROOFS. The instructions that move bytes between registers and memory (45_index_memory.md R163 to R165, 20_memory.md R56): a block of
bytes stored at `I`, a block of registers loaded, and the store that the next fetch sees. -/

namespace Sys2Proof.Machine

/-! ## The answers -/

theorem exec_ldBVx {s : State} (x : Reg) (h : ¬ s.spanFaults 3) :
    exec (.ldBVx x) s = .next (s.setMem (s.mem.writeList s.i.toNat (decimalDigits (s.reg x)))) := execLdBVx_eq x s h

theorem exec_ldMemVx {s : State} (x : Reg) (h : ¬ s.spanFaults (x.val + 1)) :
    exec (.ldMemVx x) s = .next (s.setMem (s.mem.writeList s.i.toNat (s.regBlock x))) := execLdMemVx_eq x s h

theorem exec_ldVxMem {s : State} (x : Reg) (h : ¬ s.spanFaults (x.val + 1)) :
    exec (.ldVxMem x) s = .next (s.setRegsFrom 0 ((List.range (x.val + 1)).map fun k => s.byteAt (s.i.toNat + k))) :=
  execLdVxMem_eq x s h

/-- A block store that goes on had all its addresses in memory. -/
theorem not_spanFaults_of_ldMemVx_next {x : Reg} {s t : State} (h : exec (.ldMemVx x) s = .next t) :
    ¬ s.spanFaults (x.val + 1) :=
  fun hOut => nomatch h.symm.trans (execLdMemVx_fault x s hOut)

/-! ## A block of bytes stored at `I` -/

theorem Memory.read_writeList_inside (m : Memory) (base : Nat) {bs : List Byte} {k : Nat} (hk : k < bs.length) :
    (m.writeList base bs).read (base + k) = bs[k] := by
  have hInside : base ≤ base + k ∧ base + k < base + bs.length := ⟨Nat.le_add_right _ _, Nat.add_lt_add_left hk _⟩
  rw [Memory.read_writeList, dif_pos hInside]
  congr 1
  exact Nat.add_sub_cancel_left _ _

theorem Memory.read_writeList_outside (m : Memory) {base a : Nat} {bs : List Byte}
    (ha : ¬ (base ≤ a ∧ a < base + bs.length)) : (m.writeList base bs).read a = m.read a := by
  rw [Memory.read_writeList, dif_neg ha]

theorem State.byteAt_setMem_writeList (s : State) (bs : List Byte) (k : Nat) (hk : k < bs.length) :
    (s.setMem (s.mem.writeList s.i.toNat bs)).byteAt (s.effectiveAddress k) = bs[k] :=
  Memory.read_writeList_inside s.mem s.i.toNat hk

theorem State.setMem_writeList_keepsBytesOutside (s : State) (base : Nat) (bs : List Byte) :
    KeepsBytesOutside base bs.length s (s.setMem (s.mem.writeList base bs)) :=
  fun _ ha => Memory.read_writeList_outside s.mem ha

theorem decimalDigits_toNat (b : Byte) :
    (decimalDigits b)[0].toNat = b.toNat / 100 ∧ (decimalDigits b)[1].toNat = b.toNat / 10 % 10 ∧
      (decimalDigits b)[2].toNat = b.toNat % 10 := by
  have hb := b.isLt
  simp only [decimalDigits, List.getElem_cons_zero, List.getElem_cons_succ, BitVec.toNat_ofNat]
  omega

/-- Settles O38: the three digits are stored one after the other from `I` on. -/
theorem storeBcdWritesThreeDigits : Obligations.StoreBcdWritesThreeDigits := by
  intro x s hIn
  obtain ⟨hHundreds, hTens, hOnes⟩ := decimalDigits_toNat (s.reg x)
  refine ⟨_, exec_ldBVx x hIn, ?_, ?_, ?_, s.setMem_writeList_keepsBytesOutside _ (decimalDigits (s.reg x)), s.setMem_changesOnly _⟩
  · rw [s.byteAt_setMem_writeList _ 0 (by simp), hHundreds]
  · rw [s.byteAt_setMem_writeList _ 1 (by simp), hTens]
  · rw [s.byteAt_setMem_writeList _ 2 (by simp), hOnes]

theorem State.byteAt_setMem_regBlock (s : State) {x k : Reg} (hk : k ≤ x) :
    (s.setMem (s.mem.writeList s.i.toNat (s.regBlock x))).byteAt (s.effectiveAddress k.val) = s.reg k := by
  have hLength : k.val < (s.regBlock x).length := (s.regBlock_length x).symm ▸ Nat.lt_succ_of_le hk
  rw [s.byteAt_setMem_writeList _ k.val hLength, State.regBlock_getElem]

/-- Settles O39: the registers up to `x`, in order, are stored from `I` on. -/
theorem saveRegistersWritesTheBlock : Obligations.SaveRegistersWritesTheBlock := by
  intro x s hIn
  have hOutside := s.setMem_writeList_keepsBytesOutside s.i.toNat (s.regBlock x)
  rw [State.regBlock_length] at hOutside
  exact ⟨_, exec_ldMemVx x hIn, fun k hk => s.byteAt_setMem_regBlock hk, hOutside, s.setMem_changesOnly _⟩

/-! ## A block of registers loaded from `I` -/

theorem State.setRegsFrom_changesOnly (s : State) (k : Nat) (bs : List Byte) : ChangesOnly [.regs] s (s.setRegsFrom k bs) := by
  rw [State.setRegsFrom_frame]
  intro p hp
  cases p
  case regs => exact absurd (List.mem_singleton_self _) hp
  case memory => exact fun _ => rfl
  all_goals rfl

/-- Settles O40: register `k` up to `x` takes the `k`-th byte read, and the block reaches no later one. -/
theorem loadRegistersReadsTheBlock : Obligations.LoadRegistersReadsTheBlock := by
  intro x s hIn
  refine ⟨_, exec_ldVxMem x hIn, fun k hk => ?_, fun k hk => ?_, s.setRegsFrom_changesOnly 0 _⟩
  all_goals rw [State.setRegsFrom_reg]
  · have hReached : 0 ≤ k.val ∧ k.val < 0 + ((List.range (x.val + 1)).map fun j => s.byteAt (s.i.toNat + j)).length := by
      rw [List.length_map, List.length_range]
      have hVal : k.val ≤ x.val := hk
      omega
    rw [dif_pos hReached, List.getElem_map, List.getElem_range]
    rfl
  · rw [dif_neg]
    rw [List.length_map, List.length_range]
    have hVal : x.val < k.val := hk
    omega

/-- Settles O41: the load reads, at the same addresses and in the same memory, the bytes that the store wrote. -/
theorem saveThenLoadGivesTheRegistersBack : Obligations.SaveThenLoadGivesTheRegistersBack := by
  intro x s t u hSave hMem hI
  have hIn := not_spanFaults_of_ldMemVx_next hSave
  obtain rfl := Host.Outcome.next.inj ((exec_ldMemVx x hIn).symm.trans hSave)
  have hAddress : ∀ k : Nat, u.effectiveAddress k = s.effectiveAddress k := fun k => by
    rw [State.effectiveAddress, hI, State.effectiveAddress]
  have hInAgain : ¬ u.spanFaults (x.val + 1) := by
    rw [State.spanFaults, hAddress]
    exact hIn
  obtain ⟨w, hLoad, hRead, hKept, -⟩ := loadRegistersReadsTheBlock x u hInAgain
  refine ⟨w, hLoad, fun k hk => ?_, hKept⟩
  rw [hRead k hk, hAddress, State.byteAt, hMem]
  exact s.byteAt_setMem_regBlock hk

/-! ## The store that the next fetch sees (R56) -/

/-- Settles O42: the two bytes at the post-fetch counter lie in the block, which lies in memory, so they can be fetched and are the
stored registers. -/
theorem storeIsSeenByTheNextFetch : Obligations.StoreIsSeenByTheNextFetch := by
  intro x k s t hSave hk hPc
  have hIn := not_spanFaults_of_ldMemVx_next hSave
  obtain rfl := Host.Outcome.next.inj ((exec_ldMemVx x hIn).symm.trans hSave)
  have hVal : k.val < x.val := hk
  have hNext : (k + 1).val = k.val + 1 := Fin.val_add_one_of_lt (lt_of_lt_of_le hk (Fin.le_last x))
  have hSucc : k + 1 ≤ x := Fin.le_def.mpr (hNext ▸ hVal)
  have hAfter : s.pc.toNat + 1 = s.effectiveAddress (k + 1).val := by
    rw [hPc, hNext]
    rfl
  have hTop : s.effectiveAddress x.val ≤ 0xFFF := not_lt.mp fun hOut => hIn ⟨Nat.succ_pos _, hOut⟩
  have hFetch : (s.setMem (s.mem.writeList s.i.toNat (s.regBlock x))).fetchable := by
    show s.pc.toNat ≤ 0xFFE
    rw [State.effectiveAddress] at hPc hTop
    omega
  rw [State.fetch_of_fetchable hFetch, State.wordAtPc, State.setMem_pc, hAfter, hPc]
  rw [s.byteAt_setMem_regBlock (le_of_lt hk), s.byteAt_setMem_regBlock hSucc]

end Sys2Proof.Machine
end

section
/-! PROOFS. `DRW` (43_display.md R141, R142): the rows of a sprite read from memory, the cells that its 1 bits land on, one draw and a second
one over it. -/

namespace Sys2Proof.Machine

/-! ## The sprite in memory -/

/-- The rows of the sprite of height `n` at `I`. -/
def State.spriteRows (s : State) (n : Nat) : List Byte := (List.range n).map fun k => s.byteAt (s.i.toNat + k)

theorem State.spriteRows_length (s : State) (n : Nat) : (s.spriteRows n).length = n := by
  rw [State.spriteRows, List.length_map, List.length_range]

theorem State.spriteRows_getD (s : State) {n r : Nat} (hr : r < n) :
    (s.spriteRows n).getD r 0x00#8 = s.byteAt (s.effectiveAddress r) := by
  have hLength : r < (s.spriteRows n).length := (s.spriteRows_length n).symm ▸ hr
  rw [List.getD_eq_getElem _ _ hLength]
  exact (List.getElem_map _).trans (by rw [List.getElem_range]; rfl)

theorem State.spriteBit_spriteRows_iff (s : State) (n r c : Nat) :
    spriteBit (s.spriteRows n) r c = true ↔
      r < n ∧ c < 8 ∧ (s.byteAt (s.effectiveAddress r)).getLsbD (7 - c) = true := by
  by_cases hr : r < n
  · rw [spriteBit, s.spriteRows_getD hr, Bool.and_eq_true, decide_eq_true_eq]
    exact ⟨fun h => ⟨hr, h⟩, fun h => h.2⟩
  · have hBeyond : (s.spriteRows n).length ≤ r := (s.spriteRows_length n).symm ▸ not_lt.mp hr
    rw [spriteBit_beyond hBeyond]
    exact ⟨nofun, fun h => absurd h.1 hr⟩

/-- A sprite bit covers a cell exactly when it lands on it: with at most 32 rows the two offsets of the cell are the only ones that
reach it. -/
theorem State.spriteCovers_iff (s : State) (x y : Reg) {n cx cy : Nat} (hn : n ≤ 32) (hcx : cx < 64) (hcy : cy < 32) :
    spriteCovers (s.spriteRows n) (s.reg x).toNat (s.reg y).toNat cx cy = true ↔ SpriteLandsOn x y n s cx cy := by
  rw [spriteCovers, s.spriteBit_spriteRows_iff]
  constructor
  · rintro ⟨hr, hc, hBit⟩
    exact ⟨_, _, hr, hc, hBit, by omega, by omega⟩
  · rintro ⟨r, c, hr, hc, hBit, hx, hy⟩
    have hColumn : (cx + 64 - (s.reg x).toNat % 64) % 64 = c := by omega
    have hRow : (cy + 32 - (s.reg y).toNat % 32) % 32 = r := by omega
    rw [hColumn, hRow]
    exact ⟨hr, hc, hBit⟩

/-! ## One draw -/

/-- The display and the collision that `DRW Vx, Vy, n` draws. -/
def State.drawing (s : State) (x y : Reg) (n : Nat) : Drawing :=
  drawSprite s.fb (s.reg x).toNat (s.reg y).toNat (s.spriteRows n)

theorem exec_drw {s : State} (x y : Reg) {n : Nat} (h : ¬ s.spanFaults n) :
    exec (.drw x y n) s =
      .next ((s.setFb (s.drawing x y n).1).setReg regF (collisionFlag (s.drawing x y n).2)) := execDrw_eq x y n s h

theorem not_spanFaults_of_drw_next {x y : Reg} {n : Nat} {s t : State} (h : exec (.drw x y n) s = .next t) :
    ¬ s.spanFaults n :=
  fun hOut => nomatch h.symm.trans (execDrw_fault x y n s hOut)

theorem Display.cell_mod (fb : Display) (cx cy : Nat) : Display.cell fb (cx % 64) (cy % 32) = Display.cell fb cx cy := by
  unfold Display.cell
  simp

theorem State.drawing_cell (s : State) (x y : Reg) {n cx cy : Nat} (hn : n ≤ 32) (hcx : cx < 64) (hcy : cy < 32) :
    (SpriteLandsOn x y n s cx cy → Display.cell (s.drawing x y n).1 cx cy = !Display.cell s.fb cx cy) ∧
    (¬ SpriteLandsOn x y n s cx cy → Display.cell (s.drawing x y n).1 cx cy = Display.cell s.fb cx cy) := by
  have hCells := (drawRows_spec (s.reg x).toNat (s.spriteRows n) (s.reg y).toNat (s.fb, false)
    ((s.spriteRows_length n).symm ▸ hn)).1 cx cy hcx hcy
  rw [State.drawing, drawSprite, hCells, ← s.spriteCovers_iff x y hn hcx hcy]
  cases spriteCovers (s.spriteRows n) (s.reg x).toNat (s.reg y).toNat cx cy <;> simp

theorem State.drawing_collides_iff (s : State) (x y : Reg) {n : Nat} (hn : n ≤ 32) :
    (s.drawing x y n).2 = true ↔
      ∃ cx cy : Nat, cx < 64 ∧ cy < 32 ∧ SpriteLandsOn x y n s cx cy ∧ Display.cell s.fb cx cy = true := by
  have hCollision := (drawRows_spec (s.reg x).toNat (s.spriteRows n) (s.reg y).toNat (s.fb, false)
    ((s.spriteRows_length n).symm ▸ hn)).2
  rw [State.drawing, drawSprite, hCollision]
  constructor
  · rintro (hFalse | ⟨r, c, -, -, hBit, hSet⟩)
    · exact absurd hFalse Bool.false_ne_true
    · obtain ⟨hr, hc, hOne⟩ := (s.spriteBit_spriteRows_iff n r c).mp hBit
      refine ⟨_, _, Nat.mod_lt _ (by decide), Nat.mod_lt _ (by decide), ⟨r, c, hr, hc, hOne, rfl, rfl⟩, ?_⟩
      rw [Display.cell_mod]
      exact hSet
  · rintro ⟨cx, cy, -, -, ⟨r, c, hr, hc, hOne, rfl, rfl⟩, hSet⟩
    rw [Display.cell_mod] at hSet
    exact .inr ⟨r, c, (s.spriteRows_length n).symm ▸ hr, hc, (s.spriteBit_spriteRows_iff n r c).mpr ⟨hr, hc, hOne⟩, hSet⟩

/-- A cell goes from set to unset exactly when it was set and a sprite bit landed on it. -/
theorem State.drawing_unsets_iff (s : State) (x y : Reg) {n cx cy : Nat} (hn : n ≤ 32) (hcx : cx < 64) (hcy : cy < 32) :
    Display.cell s.fb cx cy = true ∧ Display.cell (s.drawing x y n).1 cx cy = false ↔
      SpriteLandsOn x y n s cx cy ∧ Display.cell s.fb cx cy = true := by
  obtain ⟨hFlips, hKeeps⟩ := s.drawing_cell x y hn hcx hcy
  by_cases hLands : SpriteLandsOn x y n s cx cy
  · simp +contextual [hFlips hLands, hLands]
  · simp +contextual [hKeeps hLands, hLands]

theorem State.drawing_collides_iff_unsets (s : State) (x y : Reg) {n : Nat} (hn : n ≤ 32) :
    (s.drawing x y n).2 = true ↔
      ∃ cx cy : Nat, cx < 64 ∧ cy < 32 ∧ Display.cell s.fb cx cy = true ∧ Display.cell (s.drawing x y n).1 cx cy = false := by
  rw [s.drawing_collides_iff x y hn]
  constructor
  · rintro ⟨cx, cy, hcx, hcy, h⟩
    exact ⟨cx, cy, hcx, hcy, (s.drawing_unsets_iff x y hn hcx hcy).mpr h⟩
  · rintro ⟨cx, cy, hcx, hcy, h⟩
    exact ⟨cx, cy, hcx, hcy, (s.drawing_unsets_iff x y hn hcx hcy).mp h⟩

theorem State.drawn_reg_flag (s : State) (d : Drawing) :
    ((s.setFb d.1).setReg regF (collisionFlag d.2)).reg regF = flagByte d.2 := State.reg_setReg_same _ regF _

theorem State.drawn_changesOnly (s : State) (d : Drawing) :
    ChangesOnly [.regs, .display] s ((s.setFb d.1).setReg regF (collisionFlag d.2)) := by
  have hFb : ChangesOnly [.regs, .display] s (s.setFb d.1) := (s.setFb_changesOnly d.1).mono (by decide)
  exact hFb.trans ((State.setReg_changesOnly _ regF _).mono (by decide))

/-- Settles O30: the cells are those of the drawing, which collides exactly when it unsets a cell; the collision goes to `VF` last. -/
theorem drawTurnsOverTheCellsUnderTheSprite : Obligations.DrawTurnsOverTheCellsUnderTheSprite := by
  intro x y n s hn hIn
  have hRows : n ≤ 32 := hn.trans (by decide)
  have hCollides := s.drawing_collides_iff_unsets x y hRows
  refine ⟨_, exec_drw x y hIn, fun cx cy hcx hcy => s.drawing_cell x y hRows hcx hcy, fun h => ?_, fun h => ?_,
    State.setReg_keepsRegsBut _ regF _, s.drawn_changesOnly _⟩
  · rw [State.drawn_reg_flag, hCollides.mpr h, flagByte_true]
  · rw [State.drawn_reg_flag, Bool.eq_false_of_not_eq_true (mt hCollides.mp h), flagByte_false]

/-! ## A second draw -/

/-- A sprite lands on the same cells in two states that agree on what `DRW` reads. -/
theorem SpriteLandsOn.congr {x y : Reg} {n : Nat} {s u : State} (hx : u.reg x = s.reg x) (hy : u.reg y = s.reg y)
    (hBytes : ∀ r : Nat, r < n → u.byteAt (u.effectiveAddress r) = s.byteAt (s.effectiveAddress r)) (cx cy : Nat) :
    SpriteLandsOn x y n u cx cy ↔ SpriteLandsOn x y n s cx cy := by
  unfold SpriteLandsOn
  rw [hx, hy]
  refine exists_congr fun r => exists_congr fun c => and_congr_right fun hr => ?_
  rw [hBytes r hr]

theorem flagByte_eq_one_iff (p : Bool) : flagByte p = 0x01#8 ↔ p = true := by cases p <;> decide

/-- Settles O31: both drawings turn over the same cells, so the second restores each; and a cell that the second finds set is one that
the first found unset. -/
theorem drawingTwiceRestoresTheDisplay : Obligations.DrawingTwiceRestoresTheDisplay := by
  intro x y n s t u hn hDraw hFb hx hy hI hBytes
  have hRows : n ≤ 32 := hn.trans (by decide)
  have hIn := not_spanFaults_of_drw_next hDraw
  obtain rfl := Host.Outcome.next.inj ((exec_drw x y hIn).symm.trans hDraw)
  have hFirst : u.fb = (s.drawing x y n).1 := hFb
  have hInAgain : ¬ u.spanFaults n := by
    rw [State.spanFaults, State.effectiveAddress, hI]
    exact hIn
  have hLands := SpriteLandsOn.congr hx hy hBytes
  refine ⟨_, exec_drw x y hInAgain, ?display, ?collision, ?flag⟩
  case display =>
    refine Display.ext_of_cell fun cx cy hcx hcy => ?_
    obtain ⟨hFlips, hKeeps⟩ := s.drawing_cell x y hRows hcx hcy
    obtain ⟨hFlipsAgain, hKeepsAgain⟩ := u.drawing_cell x y hRows hcx hcy
    rw [State.setReg_fb, State.setFb_fb]
    by_cases h : SpriteLandsOn x y n s cx cy
    · rw [hFlipsAgain ((hLands cx cy).mpr h), hFirst, hFlips h, Bool.not_not]
    · rw [hKeepsAgain (mt (hLands cx cy).mp h), hFirst, hKeeps h]
  case collision =>
    rw [State.drawn_reg_flag, flagByte_eq_one_iff, u.drawing_collides_iff x y hRows]
    refine exists_congr fun cx => exists_congr fun cy => and_congr_right fun hcx => and_congr_right fun hcy => ?_
    rw [hLands cx cy]
    refine and_congr_right fun h => ?_
    rw [hFirst, (s.drawing_cell x y hRows hcx hcy).1 h, Bool.not_eq_true']
  case flag =>
    rw [State.drawn_reg_flag]
    cases (u.drawing x y n).2
    case false => exact .inl rfl
    case true => exact .inr rfl

end Sys2Proof.Machine
end

section
/-! PROOFS. What an instruction may change (10_state.md R12, R14, R16, R17, R20, R23, R25, R27): the next state of each form that can fault
or branch, the frame of every instruction, and the rules that follow from it. -/

namespace Sys2Proof.Machine

/-! ## The next state of a form that can fault or branch -/

theorem exec_ret_next {s t : State} (h : exec .ret s = .next t) :
    ∃ (older : List Word) (a : Word), s.stack = older ++ [a] ∧ t = (s.setStack older).setPc a := by
  obtain ⟨p, hPop, hNext⟩ := orRaise_next (show orRaise s.pop _ = .next t from h)
  obtain ⟨older, hStack, hState⟩ := State.pop_ok hPop
  refine ⟨older, p.1, hStack, ?_⟩
  rw [← hState]
  exact (Host.Outcome.next.inj hNext).symm

theorem exec_call_next {nnn : Addr} {s t : State} (h : exec (.call nnn) s = .next t) :
    s.stack.length ≠ s.cfg.stackLimit ∧ t = s.enterCall nnn := by
  have hRoom : s.stack.length ≠ s.cfg.stackLimit := fun hFull => nomatch (exec_call_full nnn hFull).symm.trans h
  exact ⟨hRoom, Host.Outcome.next.inj (h.symm.trans (exec_call_eq nnn hRoom))⟩

theorem exec_drw_next {x y : Reg} {n : Nat} {s t : State} (h : exec (.drw x y n) s = .next t) :
    t = (s.setFb (s.drawing x y n).1).setReg regF (collisionFlag (s.drawing x y n).2) :=
  Host.Outcome.next.inj (h.symm.trans (exec_drw x y (not_spanFaults_of_drw_next h)))

theorem exec_ldBVx_next {x : Reg} {s t : State} (h : exec (.ldBVx x) s = .next t) :
    ¬ s.spanFaults 3 ∧ t = s.setMem (s.mem.writeList s.i.toNat (decimalDigits (s.reg x))) := by
  have hIn : ¬ s.spanFaults 3 := fun hOut => nomatch h.symm.trans (execLdBVx_fault x s hOut)
  exact ⟨hIn, Host.Outcome.next.inj (h.symm.trans (exec_ldBVx x hIn))⟩

theorem exec_ldMemVx_next {x : Reg} {s t : State} (h : exec (.ldMemVx x) s = .next t) :
    ¬ s.spanFaults (x.val + 1) ∧ t = s.setMem (s.mem.writeList s.i.toNat (s.regBlock x)) := by
  have hIn := not_spanFaults_of_ldMemVx_next h
  exact ⟨hIn, Host.Outcome.next.inj (h.symm.trans (exec_ldMemVx x hIn))⟩

theorem exec_ldVxMem_next {x : Reg} {s t : State} (h : exec (.ldVxMem x) s = .next t) :
    ¬ s.spanFaults (x.val + 1) ∧
      t = s.setRegsFrom 0 ((List.range (x.val + 1)).map fun k => s.byteAt (s.i.toNat + k)) := by
  have hIn : ¬ s.spanFaults (x.val + 1) := fun hOut => nomatch h.symm.trans (execLdVxMem_fault x s hOut)
  exact ⟨hIn, Host.Outcome.next.inj (h.symm.trans (exec_ldVxMem x hIn))⟩

theorem exec_ldVxK_next {x : Reg} {s t : State} (h : exec (.ldVxK x) s = .next t) :
    (s.key = none ∧ t = s.retreat) ∨ ∃ k : KeyCode, s.key = some k ∧ t = s.setReg x (keyByte k) := by
  cases hKey : s.key with
  | none => exact .inl ⟨rfl, Host.Outcome.next.inj (h.symm.trans (exec_ldVxK_none x hKey))⟩
  | some k => exact .inr ⟨k, rfl, Host.Outcome.next.inj (h.symm.trans (exec_ldVxK_some x hKey))⟩

theorem skipWhen_eq_next {p : Bool} {s t : State} (h : skipWhen p s = .next t) : t = s.advance ∨ t = s := by
  cases p
  case true => exact .inl (Host.Outcome.next.inj h).symm
  case false => exact .inr (Host.Outcome.next.inj h).symm

/-! ## The frame of every instruction -/

theorem skipWhen_changesOnly {p : Bool} {s t : State} (h : skipWhen p s = .next t) : ChangesOnly [.pc] s t := by
  rcases skipWhen_eq_next h with rfl | rfl
  · exact s.advance_changesOnly
  · exact ChangesOnly.refl _ _

theorem exec_ldVxK_changesOnly {x : Reg} {s t : State} (h : exec (.ldVxK x) s = .next t) :
    ChangesOnly [.regs, .pc] s t := by
  rcases exec_ldVxK_next h with ⟨-, rfl⟩ | ⟨k, -, rfl⟩
  · exact s.retreat_changesOnly.mono (by decide)
  · exact (s.setReg_changesOnly x _).mono (by decide)

/-- Settles O44: each form is built from the updates of its own parts, and each update has its frame. -/
theorem instructionsChangeOnlyTheirParts : Obligations.InstructionsChangeOnlyTheirParts := by
  intro i s t h
  cases i
  case ret => obtain ⟨older, a, -, rfl⟩ := exec_ret_next h; exact s.setStack_setPc_changesOnly older a
  case call nnn => obtain ⟨-, rfl⟩ := exec_call_next h; exact s.setStack_setPc_changesOnly _ _
  case drw x y n => obtain rfl := exec_drw_next h; exact s.drawn_changesOnly _
  case ldBVx x => obtain ⟨-, rfl⟩ := exec_ldBVx_next h; exact s.setMem_changesOnly _
  case ldMemVx x => obtain ⟨-, rfl⟩ := exec_ldMemVx_next h; exact s.setMem_changesOnly _
  case ldVxMem x => obtain ⟨-, rfl⟩ := exec_ldVxMem_next h; exact s.setRegsFrom_changesOnly 0 _
  case ldVxK x => exact exec_ldVxK_changesOnly h
  case seVxNn | sneVxNn | seVxVy | sneVxVy | skp | sknp => exact skipWhen_changesOnly h
  all_goals obtain rfl := Host.Outcome.next.inj h
  case cls => exact s.setFb_changesOnly _
  case jp | jpV0Nnn => exact s.setPc_changesOnly _
  case ldVxNn | addVxNn | ldVxVy | orVxVy | andVxVy | xorVxVy | ldVxDt => exact s.setReg_changesOnly _ _
  case addVxVy | subVxVy | shrVxVy | subnVxVy | shlVxVy => exact s.resultThenFlag_changesOnly _ _ _
  case rndVxNn x nn => exact s.countDraw_setReg_changesOnly x _
  case ldDtVx => exact s.setDt_changesOnly _
  case ldStVx => exact s.setSt_changesOnly _
  case ldINnn | addIVx | ldFVx => exact s.setI_changesOnly _

/-! ## Registers and the flag (R12) -/

theorem flagByte_zero_or_one (p : Bool) : flagByte p = 0x00#8 ∨ flagByte p = 0x01#8 := by
  cases p
  case false => exact .inl rfl
  case true => exact .inr rfl

theorem exec_flag_of_writesFlag {i : Instr} {s t : State} (h : exec i s = .next t) (hFlag : Instr.writesFlag i = true) :
    t.reg regF = 0x00#8 ∨ t.reg regF = 0x01#8 := by
  cases i
  case drw x y n =>
    obtain rfl := exec_drw_next h
    rw [State.drawn_reg_flag]
    exact flagByte_zero_or_one _
  case addVxVy | subVxVy | shrVxVy | subnVxVy | shlVxVy =>
    obtain rfl := Host.Outcome.next.inj h
    rw [State.resultThenFlag_reg_flag]
    exact flagByte_zero_or_one _
  all_goals exact nomatch hFlag

theorem exec_reg_of_not_destination {i : Instr} {s t : State} (h : exec i s = .next t) {r : Reg}
    (hOther : Instr.destination r i = false) (hFlag : Instr.writesFlag i = true → r ≠ regF) : t.reg r = s.reg r := by
  by_cases hRegs : Part.regs ∈ Instr.parts i
  case neg => exact instructionsChangeOnlyTheirParts i s t h .regs hRegs r
  case pos =>
  cases i
  case drw x y n =>
    obtain rfl := exec_drw_next h
    exact State.setReg_keepsRegsBut _ regF _ r (hFlag rfl)
  case addVxVy x y | subVxVy x y | shrVxVy x y | subnVxVy x y | shlVxVy x y =>
    obtain rfl := Host.Outcome.next.inj h
    exact s.resultThenFlag_keepsRegsButFlag x _ _ r (of_decide_eq_false hOther) (hFlag rfl)
  case ldVxNn x nn | addVxNn x nn | ldVxVy x y | orVxVy x y | andVxVy x y | xorVxVy x y | ldVxDt x =>
    obtain rfl := Host.Outcome.next.inj h
    exact s.setReg_keepsRegsBut x _ r (of_decide_eq_false hOther)
  case rndVxNn x nn =>
    obtain rfl := Host.Outcome.next.inj h
    exact s.countDraw.setReg_keepsRegsBut x _ r (of_decide_eq_false hOther)
  case ldVxK x =>
    rcases exec_ldVxK_next h with ⟨-, rfl⟩ | ⟨k, -, rfl⟩
    · rfl
    · exact s.setReg_keepsRegsBut x _ r (of_decide_eq_false hOther)
  case ldVxMem x =>
    obtain ⟨hIn, -⟩ := exec_ldVxMem_next h
    obtain ⟨w, hLoad, -, hKept, -⟩ := loadRegistersReadsTheBlock x s hIn
    obtain rfl := Host.Outcome.next.inj (h.symm.trans hLoad)
    exact hKept r (not_le.mp (of_decide_eq_false hOther))
  all_goals exact absurd hRegs (by simp [Instr.parts])

/-- Settles O45: the six write a flag byte last; every other register write goes to a destination. -/
theorem flagIsWrittenOnlyByTheSixWriters : Obligations.FlagIsWrittenOnlyByTheSixWriters :=
  fun _ _ _ h => ⟨exec_flag_of_writesFlag h, fun _ => exec_reg_of_not_destination h⟩

/-! ## Program counter and stack (R14, R20) -/

/-- A part that an instruction changed is one of its parts. -/
theorem mem_parts_of_changed {i : Instr} {s t : State} {p : Part} (h : exec i s = .next t) (hChanged : ¬ SameIn p s t) :
    p ∈ Instr.parts i :=
  by_contra fun hNot => hChanged (instructionsChangeOnlyTheirParts i s t h p hNot)

theorem skipWhen_pc_of_changed {p : Bool} {s t : State} (h : skipWhen p s = .next t) (hPc : t.pc ≠ s.pc) :
    t.pc = s.pc + 2#16 := by
  rcases skipWhen_eq_next h with rfl | rfl
  · exact s.advance_pc
  · exact absurd rfl hPc

theorem exec_ldVxK_pc_of_changed {x : Reg} {s t : State} (h : exec (.ldVxK x) s = .next t) (hPc : t.pc ≠ s.pc) :
    t.pc = s.pc - 2#16 ∧ s.key = none := by
  rcases exec_ldVxK_next h with ⟨hKey, rfl⟩ | ⟨k, -, rfl⟩
  · exact ⟨s.retreat_pc, hKey⟩
  · exact absurd rfl hPc

/-- Settles O46: by its frame only a transfer, a skip or the wait can change `PC`; a skip advances it and the wait takes it back. -/
theorem pcChangesOnlyByTransfersSkipsAndWait : Obligations.PcChangesOnlyByTransfersSkipsAndWait := by
  intro i s t h hPc
  have hParts : Part.pc ∈ Instr.parts i := mem_parts_of_changed h hPc
  cases i
  case jp nnn | call nnn | jpV0Nnn nnn => exact .inl ⟨nnn, by simp⟩
  case ret => exact .inr (.inl rfl)
  case seVxNn x nn | sneVxNn x nn => exact .inr (.inr (.inl ⟨skipWhen_pc_of_changed h hPc, x, x, nn, by simp⟩))
  case seVxVy x y | sneVxVy x y => exact .inr (.inr (.inl ⟨skipWhen_pc_of_changed h hPc, x, y, 0x00#8, by simp⟩))
  case skp x | sknp x => exact .inr (.inr (.inl ⟨skipWhen_pc_of_changed h hPc, x, x, 0x00#8, by simp⟩))
  case ldVxK x =>
    obtain ⟨hBack, hKey⟩ := exec_ldVxK_pc_of_changed h hPc
    exact .inr (.inr (.inr ⟨hBack, hKey, x, rfl⟩))
  all_goals exact absurd hParts (by simp [Instr.parts])

/-- Settles O47: by its frame only `RET` or `CALL` can change the stack, and each says how. -/
theorem onlyCallPushesAndOnlyRetPops : Obligations.OnlyCallPushesAndOnlyRetPops := by
  intro i s t h hStack
  have hParts : Part.stack ∈ Instr.parts i := mem_parts_of_changed h hStack
  cases i
  case ret =>
    obtain ⟨older, a, hOld, rfl⟩ := exec_ret_next h
    exact .inr ⟨rfl, hOld⟩
  case call nnn =>
    obtain ⟨-, rfl⟩ := exec_call_next h
    exact .inl ⟨⟨nnn, rfl⟩, rfl⟩
  all_goals exact absurd hParts (by simp [Instr.parts])

/-! ## The rules of a step (R16, R17, R23, R25, R27) -/

/-- A part other than `PC` that a step changed is one of the fetched instruction's, which changed it in execute. -/
theorem step_part_changed {s t : State} {p : Part} (h : step s = .next t) (hp : p ≠ .pc) (hChanged : ¬ SameIn p s t) :
    ∃ i : Instr, s.fetches i ∧ exec i s.advance = .next t ∧ p ∈ Instr.parts i := by
  have hFetchKeeps : SameIn p s s.advance := s.advance_changesOnly p (mt List.mem_singleton.mp hp)
  obtain ⟨hFetch, ⟨i, hDecode, hExec⟩ | ⟨op, -, -, rfl⟩⟩ := step_next h
  · exact ⟨i, ⟨hFetch, hDecode⟩, hExec, mem_parts_of_changed hExec fun hSame => hChanged (hFetchKeeps.trans hSame)⟩
  · exact absurd hFetchKeeps hChanged

theorem display_mem_parts {i : Instr} (h : Part.display ∈ Instr.parts i) :
    i = .cls ∨ ∃ (x y : Reg) (n : Nat), i = .drw x y n := by
  cases i
  case cls => exact .inl rfl
  case drw x y n => exact .inr ⟨x, y, n, rfl⟩
  all_goals exact absurd h (by simp [Instr.parts])

theorem delay_mem_parts {i : Instr} (h : Part.delay ∈ Instr.parts i) : ∃ x : Reg, i = .ldDtVx x := by
  cases i
  case ldDtVx x => exact ⟨x, rfl⟩
  all_goals exact absurd h (by simp [Instr.parts])

theorem sound_mem_parts {i : Instr} (h : Part.sound ∈ Instr.parts i) : ∃ x : Reg, i = .ldStVx x := by
  cases i
  case ldStVx x => exact ⟨x, rfl⟩
  all_goals exact absurd h (by simp [Instr.parts])

theorem key_config_not_mem_parts (i : Instr) : Part.key ∉ Instr.parts i ∧ Part.config ∉ Instr.parts i := by
  cases i <;> simp [Instr.parts]

/-- Settles O48: the display is a part of `CLS` and `DRW` alone. -/
theorem onlyClearAndDrawChangeTheDisplay : Obligations.OnlyClearAndDrawChangeTheDisplay := by
  intro s t h hFb
  obtain ⟨i, hFetches, -, hPart⟩ := step_part_changed (p := .display) h nofun hFb
  rcases display_mem_parts hPart with rfl | ⟨x, y, n, rfl⟩
  · exact .inl hFetches
  · exact .inr ⟨x, y, n, hFetches⟩

/-- Settles O49: each timer is a part of its setter alone, which copies a register that the fetch left as it was. -/
theorem timersChangeOnlyByTheirSetters : Obligations.TimersChangeOnlyByTheirSetters := by
  intro s t h
  constructor
  · intro hDt
    obtain ⟨i, hFetches, hExec, hPart⟩ := step_part_changed (p := .delay) h nofun hDt
    obtain ⟨x, rfl⟩ := delay_mem_parts hPart
    obtain rfl := Host.Outcome.next.inj hExec
    exact ⟨x, hFetches, rfl⟩
  · intro hSt
    obtain ⟨i, hFetches, hExec, hPart⟩ := step_part_changed (p := .sound) h nofun hSt
    obtain ⟨x, rfl⟩ := sound_mem_parts hPart
    obtain rfl := Host.Outcome.next.inj hExec
    exact ⟨x, hFetches, rfl⟩

/-- Settles O50: neither the latch nor the configuration is a part of any instruction. -/
theorem noStepWritesKeyOrConfiguration : Obligations.NoStepWritesKeyOrConfiguration := by
  intro s t h
  constructor <;> by_contra hChanged
  · obtain ⟨i, -, -, hPart⟩ := step_part_changed (p := .key) h nofun hChanged
    exact (key_config_not_mem_parts i).1 hPart
  · obtain ⟨i, -, -, hPart⟩ := step_part_changed (p := .config) h nofun hChanged
    exact (key_config_not_mem_parts i).2 hPart

end Sys2Proof.Machine
end

section
/-! PROOFS. The sound timer and the step (10_state.md R17): accesses, execution, outcome and trace in two states that differ in `ST`
alone. -/

namespace Sys2Proof.Machine

/-! ## Answers that agree but for the sound timer -/

theorem AgreeButSound.next {t u : State} (h : t.setSt 0x00#8 = u.setSt 0x00#8) : AgreeButSound (.next t) (.next u) := h

theorem AgreeButSound.refl_fault (e : Fault) : AgreeButSound (.fault e) (.fault e) := rfl

theorem skipWhen_agreeButSound (p : Bool) (s : State) (v : Byte) : AgreeButSound (skipWhen p s) (skipWhen p (s.setSt v)) := by
  cases p <;> exact AgreeButSound.next rfl

/-- An access whose values `g` relates, gone on with in ways that agree. -/
theorem orRaise_agreeButSound {α : Type} {r : Except Fault α} {g : α → α} {k k' : α → Result}
    (h : ∀ a, AgreeButSound (k a) (k' (g a))) : AgreeButSound (orRaise r k) (orRaise (r.map g) k') := by
  cases r with
  | ok a => exact h a
  | error e => exact AgreeButSound.refl_fault e

/-! ## Accesses in a state with another sound timer -/

theorem State.pop_setSt (s : State) (v : Byte) : (s.setSt v).pop = s.pop.map fun p => (p.1, p.2.setSt v) := by
  rcases List.eq_nil_or_concat s.stack with hNil | ⟨older, a, hStack⟩
  · have hNilToo : (s.setSt v).stack = [] := hNil
    rw [State.pop_empty hNil, State.pop_empty hNilToo]
    rfl
  · rw [List.concat_eq_append] at hStack
    have hStackToo : (s.setSt v).stack = older ++ [a] := hStack
    rw [State.pop_concat hStack, State.pop_concat hStackToo]
    rfl

theorem State.push_setSt (s : State) (v : Byte) (a : Word) : (s.setSt v).push a = (s.push a).map (State.setSt · v) := by
  by_cases hFull : s.stack.length = s.cfg.stackLimit
  · have hFullToo : (s.setSt v).stack.length = (s.setSt v).cfg.stackLimit := hFull
    rw [State.push_full s a hFull, State.push_full _ a hFullToo]
    rfl
  · have hRoomToo : (s.setSt v).stack.length ≠ (s.setSt v).cfg.stackLimit := hFull
    rw [State.push_eq s a hFull, State.push_eq _ a hRoomToo]
    rfl

theorem State.loadSpan_setSt (s : State) (v : Byte) (base len : Nat) :
    (s.setSt v).loadSpan base len = (s.loadSpan base len).map id := by
  rw [State.loadSpan_eq, State.loadSpan_eq]
  split <;> rfl

theorem State.storeSpan_setSt (s : State) (v : Byte) (base : Nat) (bs : List Byte) :
    (s.setSt v).storeSpan base bs = (s.storeSpan base bs).map (State.setSt · v) := by
  rw [State.storeSpan_eq, State.storeSpan_eq]
  split <;> rfl

theorem State.setRegsFrom_setSt (s : State) (v w : Byte) (k : Nat) (bs : List Byte) :
    ((s.setRegsFrom k bs).setSt w) = (((s.setSt v).setRegsFrom k bs).setSt w) := by
  have hRegs : (s.setRegsFrom k bs).v = ((s.setSt v).setRegsFrom k bs).v := by
    refine State.v_ext fun r => ?_
    rw [State.setRegsFrom_reg, State.setRegsFrom_reg]
    rfl
  rw [State.setRegsFrom_frame, State.setRegsFrom_frame bs (s.setSt v), hRegs]
  rfl

/-! ## Execution -/

theorem execRet_agreeButSound (s : State) (v : Byte) : AgreeButSound (execRet s) (execRet (s.setSt v)) := by
  rw [execRet, execRet, State.pop_setSt]
  exact orRaise_agreeButSound fun _ => rfl

theorem execCall_agreeButSound (nnn : Addr) (s : State) (v : Byte) :
    AgreeButSound (execCall nnn s) (execCall nnn (s.setSt v)) := by
  rw [execCall, execCall, State.push_setSt]
  exact orRaise_agreeButSound fun _ => rfl

theorem execDrw_agreeButSound (x y : Reg) (n : Nat) (s : State) (v : Byte) :
    AgreeButSound (execDrw x y n s) (execDrw x y n (s.setSt v)) := by
  rw [execDrw, execDrw, State.loadSpan_setSt]
  exact orRaise_agreeButSound fun _ => rfl

theorem execLdBVx_agreeButSound (x : Reg) (s : State) (v : Byte) :
    AgreeButSound (execLdBVx x s) (execLdBVx x (s.setSt v)) := by
  rw [execLdBVx, execLdBVx, State.storeSpan_setSt]
  exact orRaise_agreeButSound fun _ => rfl

theorem execLdMemVx_agreeButSound (x : Reg) (s : State) (v : Byte) :
    AgreeButSound (execLdMemVx x s) (execLdMemVx x (s.setSt v)) := by
  rw [execLdMemVx, execLdMemVx, State.storeSpan_setSt]
  exact orRaise_agreeButSound fun _ => rfl

theorem execLdVxMem_agreeButSound (x : Reg) (s : State) (v : Byte) :
    AgreeButSound (execLdVxMem x s) (execLdVxMem x (s.setSt v)) := by
  rw [execLdVxMem, execLdVxMem, State.loadSpan_setSt]
  exact orRaise_agreeButSound fun bs => s.setRegsFrom_setSt v 0x00#8 0 bs

theorem execLdVxK_agreeButSound (x : Reg) (s : State) (v : Byte) :
    AgreeButSound (execLdVxK x s) (execLdVxK x (s.setSt v)) := by
  rw [execLdVxK, execLdVxK, State.setSt_key]
  cases s.key <;> exact AgreeButSound.next rfl

theorem exec_agreeButSound (i : Instr) (s : State) (v : Byte) : AgreeButSound (exec i s) (exec i (s.setSt v)) := by
  cases i
  case seVxNn | sneVxNn | seVxVy | sneVxVy | skp | sknp => exact skipWhen_agreeButSound _ s v
  case ret => exact execRet_agreeButSound s v
  case call nnn => exact execCall_agreeButSound nnn s v
  case drw x y n => exact execDrw_agreeButSound x y n s v
  case ldBVx x => exact execLdBVx_agreeButSound x s v
  case ldMemVx x => exact execLdMemVx_agreeButSound x s v
  case ldVxMem x => exact execLdVxMem_agreeButSound x s v
  case ldVxK x => exact execLdVxK_agreeButSound x s v
  all_goals exact AgreeButSound.next rfl

theorem execDecoded_agreeButSound (d : Decoded) (s : State) (v : Byte) :
    AgreeButSound (execDecoded d s) (execDecoded d (s.setSt v)) := by
  cases d with
  | recognised i => exact exec_agreeButSound i s v
  | unknown op =>
    rw [execDecoded_unknown, execDecoded_unknown, execUnknown, execUnknown, State.setSt_cfg]
    cases s.cfg.strictUnknown
    case false => exact AgreeButSound.next rfl
    case true => exact AgreeButSound.refl_fault _

/-! ## The step -/

theorem State.fetch_setSt (s : State) (v : Byte) : (s.setSt v).fetch = s.fetch := rfl

theorem goodOutcome_setSt (d : Decoded) (s : State) (v : Byte) : goodOutcome d (s.setSt v) = goodOutcome d s := rfl

/-- Executions that agree but for the sound timer report the same outcome. -/
theorem executeOutcome_setSt (d : Decoded) (s : State) (v : Byte) : executeOutcome d (s.setSt v) = executeOutcome d s := by
  have hAgree := execDecoded_agreeButSound d s v
  cases hHere : execDecoded d s with
  | refused q => exact absurd hHere (execDecoded_ne_refused d s q)
  | next t =>
    cases hThere : execDecoded d (s.setSt v) with
    | next u => rw [executeOutcome_of_next hHere, executeOutcome_of_next hThere, goodOutcome_setSt]
    | fault f => rw [hHere, hThere] at hAgree; exact False.elim hAgree
    | refused q => exact absurd hThere (execDecoded_ne_refused d _ q)
  | fault e =>
    cases hThere : execDecoded d (s.setSt v) with
    | next u => rw [hHere, hThere] at hAgree; exact False.elim hAgree
    | fault f =>
      rw [hHere, hThere] at hAgree
      rw [executeOutcome_of_fault hHere, executeOutcome_of_fault hThere, show e = f from hAgree]
    | refused q => exact absurd hThere (execDecoded_ne_refused d _ q)

/-- Settles O51: the fetch reads no timer, so both steps execute the same word, after advances that differ in `ST` alone. -/
theorem soundTimerNeverInfluencesAStep : Obligations.SoundTimerNeverInfluencesAStep := by
  intro s v
  refine ⟨?answer, ?outcome, ?trace⟩
  case answer =>
    rw [step, step, State.fetch_setSt]
    cases s.fetch with
    | error e => exact AgreeButSound.refl_fault e
    | ok op => exact execDecoded_agreeButSound (decodeWord op) s.advance v
  case outcome =>
    rw [outcomeOf, outcomeOf, State.fetch_setSt]
    cases s.fetch with
    | error e => rfl
    | ok op => exact executeOutcome_setSt (decodeWord op) s.advance v
  case trace =>
    rw [traceOf, traceOf, State.fetch_setSt, State.setSt_pc]

end Sys2Proof.Machine
end

section
/-! PROOFS. The host's moves (60_exceptions.md R193, R196, R198, 70_reset_and_hazards.md R210 to R212): reset and its memory, the ticks, the
key latch and the display. -/

namespace Sys2Proof.Machine

/-! ## Reset -/

theorem resetWith_legal {c : Config} {rom font : List Byte} (d : Nat) (hLimit : 1 ≤ c.stackLimit)
    (hRom : rom.length ≤ maxRomBytes) (hFont : font.length = fontBytes) :
    State.resetWith d c rom font = .ok (((State.reset.setCfg c).setMem (resetMemory c rom font)).setDraws d) := by
  have hCfg : ¬ c.wf = false := by
    rw [Config.wf, decide_eq_false_iff_not, not_not]
    exact hLimit
  have hImages : ¬ (maxRomBytes < rom.length ∨ font.length ≠ fontBytes) :=
    not_or.mpr ⟨not_lt.mpr hRom, not_not_intro hFont⟩
  rw [State.resetWith, if_neg hCfg, if_neg hImages]

theorem resetWith_illegal {c : Config} {rom font : List Byte} (d : Nat)
    (h : c.stackLimit = 0 ∨ maxRomBytes < rom.length ∨ font.length ≠ fontBytes) :
    ∃ r : Refusal, State.resetWith d c rom font = .error r := by
  cases hReset : State.resetWith d c rom font with
  | error r => exact ⟨r, rfl⟩
  | ok t =>
    obtain ⟨hCfg, hRom, hFont, -⟩ := State.resetWith_ok hReset
    have hLimit : 1 ≤ c.stackLimit := of_decide_eq_true hCfg
    omega

theorem resetMemory_read_rom (c : Config) {rom : List Byte} (font : List Byte) {k : Nat} (hk : k < rom.length) :
    (resetMemory c rom font).read (romBase + k) = rom.getD k 0x00#8 := by
  rw [resetMemory, Memory.read_writeList_inside _ _ hk, List.getD_eq_getElem _ _ hk]

/-- The font ends below the program. -/
theorem resetMemory_read_font (c : Config) (rom : List Byte) {font : List Byte} (hFont : font.length = 80) {k : Nat}
    (hk : k < 80) : (resetMemory c rom font).read (c.fontBase.val + k) = font.getD k 0x00#8 := by
  have hBase := c.fontBase.isLt
  have hLength : k < font.length := hFont.symm ▸ hk
  have hNoRom : ¬ (romBase ≤ c.fontBase.val + k ∧ c.fontBase.val + k < romBase + rom.length) := by
    intro h
    have hRom : 0x200 ≤ c.fontBase.val + k := h.1
    omega
  rw [resetMemory, Memory.read_writeList_outside _ hNoRom, Memory.read_writeList_inside _ _ hLength,
    List.getD_eq_getElem _ _ hLength]

theorem resetMemory_read_other (c : Config) {rom font : List Byte} (hFont : font.length = 80) {a : Nat}
    (hOutsideFont : a < c.fontBase.val ∨ c.fontBase.val + 80 ≤ a) (hOutsideRom : a < 0x200 ∨ 0x200 + rom.length ≤ a) :
    (resetMemory c rom font).read a = 0x00#8 := by
  have hNoRom : ¬ (romBase ≤ a ∧ a < romBase + rom.length) := by
    show ¬ (0x200 ≤ a ∧ a < 0x200 + rom.length)
    omega
  have hNoFont : ¬ (c.fontBase.val ≤ a ∧ a < c.fontBase.val + font.length) := by omega
  rw [resetMemory, Memory.read_writeList_outside _ hNoRom, Memory.read_writeList_outside _ hNoFont]
  rfl

theorem State.reset_reg (r : Reg) : State.reset.reg r = 0x00#8 := Vector.getElem_replicate r.isLt

/-- Settles O55: reset answers on legal images; its memory is the font, then the program above it, written over an empty one. -/
theorem resetLoadsFontAndProgram : Obligations.ResetLoadsFontAndProgram := by
  intro d c rom font hLimit hRom hFont
  exact ⟨_, resetWith_legal d hLimit hRom hFont, rfl, rfl, rfl, State.reset_reg, rfl, rfl, rfl, Display.cell_clear, rfl,
    fun k hk => resetMemory_read_font c rom hFont hk, fun k hk => resetMemory_read_rom c font hk,
    fun a hOutsideFont hOutsideRom => resetMemory_read_other c hFont hOutsideFont hOutsideRom⟩

/-- Settles O56: a reset that answers had a legal configuration and legal images; the other events need a state. -/
theorem illegalResetsAndEarlyEventsAreRefused : Obligations.IllegalResetsAndEarlyEventsAreRefused := by
  constructor
  · intro m c rom font h
    cases m with
    | none =>
      obtain ⟨r, hRefused⟩ := resetWith_illegal 0 h
      exact ⟨r, by rw [applyEvent, hRefused]; rfl⟩
    | some s =>
      obtain ⟨r, hRefused⟩ := resetWith_illegal s.draws h
      exact ⟨r, by rw [applyEvent, runningEvent, hRefused]; rfl⟩
  · intro e hOther
    cases e
    case reset c rom font => exact absurd rfl (hOther c rom font)
    all_goals rfl

/-! ## Ticks -/

/-- Settles O57: each tick is one timer write, of the counter one lower. -/
theorem ticksLowerTheirTimerToZero : Obligations.TicksLowerTheirTimerToZero :=
  fun s => ⟨⟨tickDown_toNat s.dt, s.setDt_changesOnly _⟩, ⟨tickDown_toNat s.st, s.setSt_changesOnly _⟩, rfl⟩

/-! ## The key latch -/

theorem State.setKey_changesOnly (s : State) (k : Key) : ChangesOnly [.key] s (s.setKey k) := by
  intro p hp
  cases p
  case key => exact absurd (List.mem_singleton_self _) hp
  all_goals simp [SameIn]

theorem runningEvent_setKey_some (s : State) {b : Byte} {k : Key} (h : keyOfByte b = some k) :
    runningEvent s (.setKey b) = .ok (s.setKey k, .none) := by
  simp only [runningEvent, h]

theorem runningEvent_setKey_none (s : State) {b : Byte} (h : keyOfByte b = none) :
    runningEvent s (.setKey b) = .error (.illegalKeyByte b) := by
  simp only [runningEvent, h]

theorem keyOfByte_code {b : Byte} {k : KeyCode} (h : b.toNat = k.val) : keyOfByte b = some (some k) := by
  have hByte : b = byteOfKey (some k) := by
    apply BitVec.eq_of_toNat_eq
    rw [h]
    exact (keyByte_toNat k).symm
  rw [hByte, keyOfByte_byteOfKey]

theorem keyOfByte_sentinel {b : Byte} (h : b.toNat = 0xFF) : keyOfByte b = some none :=
  if_pos (BitVec.eq_of_toNat_eq h)

theorem keyOfByte_illegal {b : Byte} (hHigh : 15 < b.toNat) (hSentinel : b.toNat ≠ 0xFF) : keyOfByte b = none := by
  have hNotSentinel : ¬ b = 0xFF#8 := fun h => hSentinel (congrArg BitVec.toNat h)
  rw [keyOfByte, if_neg hNotSentinel, dif_neg (by omega)]

/-- Settles O58: the byte encodes a key code, `NONE` or nothing, and the latch is replaced or the event refused. -/
theorem setKeyReplacesTheLatch : Obligations.SetKeyReplacesTheLatch := by
  intro s b
  refine ⟨fun k hk => ?_, fun hNone => ?_, fun hHigh hSentinel => ?_⟩
  · exact ⟨_, runningEvent_setKey_some s (keyOfByte_code hk), rfl, s.setKey_changesOnly _⟩
  · exact ⟨_, runningEvent_setKey_some s (keyOfByte_sentinel hNone), rfl, s.setKey_changesOnly _⟩
  · exact runningEvent_setKey_none s (keyOfByte_illegal hHigh hSentinel)

/-! ## The display -/

theorem Display.toVector_length (fb : Display) : (Display.toVector fb).length = 2048 := by
  exact (List.length_map _).trans List.length_range

theorem Display.toVector_getElem? (fb : Display) {x y : Nat} (hx : x < 64) (hy : y < 32) :
    (Display.toVector fb)[y * 64 + x]? = some (Display.cell fb x y) := by
  have hPlace : y * 64 + x < dispWidth * dispHeight := by
    show y * 64 + x < 2048
    omega
  have hColumn : (y * 64 + x) % dispWidth = x := by
    show (y * 64 + x) % 64 = x
    omega
  have hRow : (y * 64 + x) / dispWidth = y := by
    show (y * 64 + x) / 64 = y
    omega
  rw [Display.toVector, List.getElem?_map, List.getElem?_range hPlace, Option.map_some, hColumn, hRow]

/-- Settles O59: the event gives the display's vector and the state as it is. -/
theorem readDisplayGivesEveryCell : Obligations.ReadDisplayGivesEveryCell :=
  fun s => ⟨Display.toVector s.fb, rfl, Display.toVector_length s.fb, fun _ _ hx hy => Display.toVector_getElem? s.fb hx hy⟩

end Sys2Proof.Machine
end

section
/-! PROOFS. The invariant (10_state.md R14, R20, 40_control_flow.md R100): what keeps each of its clauses, instruction by instruction, step by
step and event by event. -/

namespace Sys2Proof.Machine

/-! ## The clauses, instruction by instruction -/

theorem exec_cfg {i : Instr} {s t : State} (h : exec i s = .next t) : t.cfg = s.cfg :=
  instructionsChangeOnlyTheirParts i s t h .config (key_config_not_mem_parts i).2

theorem le_memSize_of_not_spanFaults {s : State} {len : Nat} (hLen : 0 < len) (h : ¬ s.spanFaults len) :
    s.i.toNat + len ≤ memSize := by
  have hTop : ¬ 0xFFF < s.i.toNat + (len - 1) := fun hOut => h ⟨hLen, hOut⟩
  show s.i.toNat + len ≤ 4096
  omega

/-- Only `LD B` and `LD [I]` write memory, inside the address space. -/
theorem exec_mem_wf {i : Instr} {s t : State} (h : exec i s = .next t) (hWf : s.mem.wf = true) : t.mem.wf = true := by
  cases i
  case ldBVx x =>
    obtain ⟨hIn, rfl⟩ := exec_ldBVx_next h
    exact Memory.wf_writeList _ (le_memSize_of_not_spanFaults (by simp) hIn) hWf
  case ldMemVx x =>
    obtain ⟨hIn, rfl⟩ := exec_ldMemVx_next h
    refine Memory.wf_writeList _ ?_ hWf
    rw [State.regBlock_length]
    exact le_memSize_of_not_spanFaults (Nat.succ_pos _) hIn
  case ret => obtain ⟨older, a, -, rfl⟩ := exec_ret_next h; exact hWf
  case call nnn => obtain ⟨-, rfl⟩ := exec_call_next h; exact hWf
  case drw x y n => obtain rfl := exec_drw_next h; exact hWf
  case ldVxMem x =>
    obtain ⟨-, rfl⟩ := exec_ldVxMem_next h
    rw [State.setRegsFrom_frame]
    exact hWf
  case ldVxK x => rcases exec_ldVxK_next h with ⟨-, rfl⟩ | ⟨k, -, rfl⟩ <;> exact hWf
  case seVxNn | sneVxNn | seVxVy | sneVxVy | skp | sknp => rcases skipWhen_eq_next h with rfl | rfl <;> exact hWf
  all_goals
    obtain rfl := Host.Outcome.next.inj h
    exact hWf

/-- The stack stays within its limit, and its entries at most where the post-fetch counter and the old entries were. -/
theorem exec_stack_bounds {i : Instr} {s t : State} (h : exec i s = .next t) (hDepth : s.stack.length ≤ s.cfg.stackLimit)
    (hEntries : ∀ a ∈ s.stack, a.toNat ≤ 0x1000) (hPc : s.pc.toNat ≤ 0x1000) :
    t.stack.length ≤ t.cfg.stackLimit ∧ ∀ a ∈ t.stack, a.toNat ≤ 0x1000 := by
  rw [exec_cfg h]
  by_cases hSame : t.stack = s.stack
  · rw [hSame]
    exact ⟨hDepth, hEntries⟩
  · rcases onlyCallPushesAndOnlyRetPops i s t h hSame with ⟨⟨nnn, rfl⟩, hPush⟩ | ⟨-, hPop⟩
    · have hRoom := (exec_call_next h).1
      rw [hPush]
      constructor
      · rw [List.length_append, List.length_singleton]
        omega
      · intro a ha
        rcases List.mem_append.mp ha with hOld | hNew
        · exact hEntries a hOld
        · exact List.mem_singleton.mp hNew ▸ hPc
    · rw [hPop] at hDepth hEntries
      rw [List.length_append, List.length_singleton] at hDepth
      exact ⟨by omega, fun a ha => hEntries a (List.mem_append_left _ ha)⟩

theorem exec_jump_pc_bound {nnn : Addr} {i : Instr} {s t : State} (hi : i = .jp nnn ∨ i = .call nnn ∨ i = .jpV0Nnn nnn)
    (h : exec i s = .next t) : t.pc.toNat ≤ 0x10FE := by
  have hAddr := nnn.isLt
  rcases hi with rfl | rfl | rfl
  · obtain rfl := Host.Outcome.next.inj h
    rw [State.setPc_pc, jumpTarget_toNat]
    omega
  · obtain ⟨-, rfl⟩ := exec_call_next h
    rw [State.enterCall, State.setPc_pc, jumpTarget_toNat]
    omega
  · obtain rfl := Host.Outcome.next.inj h
    have hReg := (s.reg 0).isLt
    rw [State.setPc_pc, State.jumpTargetV0_toNat]
    omega

/-- The highest counter is the one after `JP V0, 0xFFF` with `V0` 255 (decision D17). -/
theorem exec_pc_bound {i : Instr} {s t : State} (h : exec i s = .next t) (hEntries : ∀ a ∈ s.stack, a.toNat ≤ 0x1000)
    (hLow : 2 ≤ s.pc.toNat) (hHigh : s.pc.toNat ≤ 0x1000) : t.pc.toNat ≤ 0x10FE := by
  by_cases hSame : t.pc = s.pc
  · rw [hSame]
    omega
  · rcases pcChangesOnlyByTransfersSkipsAndWait i s t h hSame with ⟨nnn, hJump⟩ | rfl | ⟨hSkip, -⟩ | ⟨hWait, -, -⟩
    · exact exec_jump_pc_bound hJump h
    · obtain ⟨older, a, hStack, rfl⟩ := exec_ret_next h
      have hEntry : a.toNat ≤ 0x1000 := hEntries a (hStack ▸ List.mem_append_right _ (List.mem_singleton_self a))
      rw [State.setPc_pc]
      omega
    · rw [hSkip, BitVec.toNat_add, BitVec.toNat_ofNat]
      omega
    · rw [hWait, BitVec.toNat_sub, BitVec.toNat_ofNat]
      omega

/-! ## The step -/

/-- After a fetch that succeeds, the counter is at most one word past the last one that can be fetched. -/
theorem State.Inv.advance {s : State} (h : s.Inv) (hFetch : s.fetchable) : s.advance.Inv := by
  obtain ⟨hCfg, hDepth, hMem, -, hEntries⟩ := h
  have hLow : s.pc.toNat ≤ 0xFFE := hFetch
  have hPc : s.advance.pc.toNat ≤ 0x10FE := by
    rw [State.advance_pc_toNat_of_fetchable hFetch]
    omega
  exact ⟨hCfg, hDepth, hMem, hPc, hEntries⟩

/-- Settles O53: on the post-fetch state every instruction keeps each clause; an `Unknown` word leaves that state. -/
theorem stepKeepsTheInvariant : Obligations.StepKeepsTheInvariant := by
  intro s t hInv h
  obtain ⟨hFetch, ⟨i, -, hExec⟩ | ⟨op, -, -, rfl⟩⟩ := step_next h
  · have hLow : s.pc.toNat ≤ 0xFFE := hFetch
    have hPc := State.advance_pc_toNat_of_fetchable hFetch
    obtain ⟨hCfg, hDepth, hMem, -, hEntries⟩ := hInv.advance hFetch
    obtain ⟨hDepth', hEntries'⟩ := exec_stack_bounds hExec hDepth hEntries (by omega)
    have hPc' := exec_pc_bound hExec hEntries (by omega) (by omega)
    exact ⟨exec_cfg hExec ▸ hCfg, hDepth', exec_mem_wf hExec hMem, hPc', hEntries'⟩
  · exact hInv.advance hFetch

/-! ## Reset and the events -/

/-- Settles O52: every clause is about a field that reset sets to a constant. -/
theorem resetStateMeetsTheInvariant : Obligations.ResetStateMeetsTheInvariant :=
  ⟨rfl, Nat.zero_le _, rfl, by decide, nofun⟩

theorem resetWith_inv {d : Nat} {c : Config} {rom font : List Byte} {t : State}
    (h : State.resetWith d c rom font = .ok t) : t.Inv := by
  obtain ⟨hCfg, hRom, hFont, rfl⟩ := State.resetWith_ok h
  exact ⟨hCfg, Nat.zero_le _, resetMemory_wf hRom hFont, (by decide : resetPc.toNat ≤ 0x10FE), nofun⟩

/-- A fault leaves the state before the step, or the state after the fetch advance; both meet the invariant. -/
theorem State.Inv.afterStep {s : State} (h : s.Inv) : (Machine.afterStep s).Inv := by
  rcases step_cases s with ⟨hNext, -⟩ | ⟨e, hFault, -⟩
  · exact stepKeepsTheInvariant s _ h hNext
  · by_cases hFetch : s.fetchable
    · rw [step_of_fetchable hFetch] at hFault
      rw [afterStep_of_fetchable hFetch, hFault]
      exact h.advance hFetch
    · rw [afterStep_of_not_fetchable hFetch]
      exact h

/-- A reset event gives the reset state of its images. -/
theorem resetEvent_ok {d : Nat} {c : Config} {rom font : List Byte} {t : State} {o : Output}
    (h : (State.resetWith d c rom font).map (fun u => (u, Output.none)) = .ok (t, o)) :
    State.resetWith d c rom font = .ok t := by
  cases hReset : State.resetWith d c rom font with
  | error q => rw [hReset] at h; cases h
  | ok u => rw [hReset] at h; cases h; rfl

theorem runningEvent_inv {s t : State} {e : Event} {o : Output} (hInv : s.Inv) (h : runningEvent s e = .ok (t, o)) :
    t.Inv := by
  cases e with
  | reset c rom font => exact resetWith_inv (resetEvent_ok h)
  | step => cases h; exact hInv.afterStep
  | setKey b =>
    cases hKey : keyOfByte b with
    | none => rw [runningEvent_setKey_none s hKey] at h; cases h
    | some k => rw [runningEvent_setKey_some s hKey] at h; cases h; exact hInv
  | tickDelay => cases h; exact hInv
  | tickSound => cases h; exact hInv
  | readDisplay => cases h; exact hInv

/-- The machine has no state yet, or one that meets the invariant. -/
def InvIfReset (m : Option State) : Prop := ∀ s : State, m = some s → s.Inv

theorem applyEvent_inv {m : Option State} {t : State} {e : Event} {o : Output} (hInv : InvIfReset m)
    (h : applyEvent m e = .ok (t, o)) : t.Inv := by
  cases m with
  | some s => exact runningEvent_inv (hInv s rfl) h
  | none =>
    cases e
    case reset c rom font => exact resetWith_inv (resetEvent_ok h)
    all_goals cases h

theorem runEvents_cons_ok {m u : Option State} {e : Event} {es : List Event} {out : List Output}
    (h : runEvents m (e :: es) = .ok (u, out)) :
    ∃ (t : State) (o : Output) (os : List Output), applyEvent m e = .ok (t, o) ∧ runEvents (some t) es = .ok (u, os) := by
  unfold runEvents at h
  split at h
  · cases h
  · next t o hFirst =>
    split at h
    · cases h
    · next v os hRest => cases h; exact ⟨t, o, os, hFirst, hRest⟩

theorem runEvents_inv (events : List Event) : ∀ {m u : Option State} {out : List Output}, InvIfReset m →
    runEvents m events = .ok (u, out) → InvIfReset u := by
  induction events with
  | nil => intro m u out hInv h; cases h; exact hInv
  | cons e es ih =>
    intro m u out hInv h
    obtain ⟨t, o, os, hFirst, hRest⟩ := runEvents_cons_ok h
    exact ih (fun s hs => Option.some.inj hs ▸ applyEvent_inv hInv hFirst) hRest

/-- Settles O54: before the first event there is no state, and every event keeps the invariant of the state it leaves. -/
theorem everyStateReachedByEventsMeetsTheInvariant : Obligations.EveryStateReachedByEventsMeetsTheInvariant :=
  fun events _ _ h => runEvents_inv events (m := none) nofun h _ rfl

end Sys2Proof.Machine
end
